-- ==== Sys2Proof/Word.lean ====
section
/-! DEFINITION. The value types of the block: bytes, code points, bits and pixels (00_scope.md R8, R9;
10_state.md R41 to R43). -/

namespace Sys2Proof

/-- One 8-bit unsigned value: a byte cell or a channel value (10_state.md R41, R42). -/
abbrev Byte := BitVec 8

/-- One code point cell, 21 bits (10_state.md R43). -/
abbrev CodePoint := BitVec 21

/-- A bit sequence, index 0 first (00_scope.md R9); `true` is the bit 1. -/
abbrev Bitstream := List Bool

/-- A pixel cell as the triple (r, g, b), which 10_state.md R41 allows in place of the 24-bit word. -/
structure Pixel where
  r : Byte
  g : Byte
  b : Byte
  deriving DecidableEq, Repr

end Sys2Proof
end

