-- ==== Sys2Proof/Syntax.lean ====
section
/-! DEFINITION. The commands of the block (30_encoding.md R91, R108), its memory spaces (10_state.md R40), the
register widths (10_state.md R20) and the host's actions (30_encoding.md R108, 70_reset_and_hazards.md R260). -/

namespace Sys2Proof

/-- The four commands, one per row of the opcode table. A command takes no operands: they are in the operand
registers and input spaces (30_encoding.md R93). -/
inductive Instr where
  | capacity
  | encode
  | decode
  | detect
  deriving DecidableEq, Repr

/-- The seven memory spaces (10_state.md R40). -/
inductive Space where
  | pixIn
  | pixOut
  | payIn
  | nameIn
  | payOut
  | nameOut
  | fnameOut
  deriving DecidableEq, Repr

/-- The width in bits of register number `n` (10_state.md R20). A number outside the table names no register; 128
bits are taken for what a write to it carries, and the write is ignored (R21; log entry 11). -/
def regWidth : Nat → Nat
  | 0 => 32    -- CMD
  | 1 => 32    -- STATUS
  | 2 => 16    -- WIDTH
  | 3 => 16    -- HEIGHT
  | 4 => 32    -- PAY_LEN
  | 5 => 32    -- NAME_LEN
  | 6 => 16    -- OUT_W
  | 7 => 16    -- OUT_H
  | 8 => 64    -- CAP_BITS
  | 9 => 64    -- CAP_BYTES
  | 10 => 64   -- NEEDED_BITS
  | 11 => 64   -- USED_BITS
  | 12 => 64   -- UTIL_NUM
  | 13 => 64   -- UTIL_DEN
  | 14 => 64   -- HDR_BITS
  | 15 => 16   -- OUT_NAME_LEN
  | 16 => 32   -- OUT_PAY_LEN
  | 17 => 16   -- OUT_FNAME_LEN
  | 18 => 64   -- ONES
  | 19 => 64   -- ZEROS
  | 20 => 16   -- BAL_E4
  | 21 => 16   -- FLIP_E4
  | 22 => 128  -- SCORE_NUM
  | 23 => 128  -- SCORE_DEN
  | 24 => 8    -- NOTE
  | _ => 128

/-- One action of the host, in the notation of 30_encoding.md R108, and the reset input (70_reset_and_hazards.md
R260). A register write carries a value of exactly the register's width (10_state.md R21). Only the three input
spaces can be written (10_state.md R40). -/
inductive HostAction where
  /-- `WR`, and for register 0 `CMD`: write register `n`. -/
  | writeReg (n : Nat) (v : BitVec (regWidth n))
  /-- `WRM PIX_IN[a..a+len)`. -/
  | writePixIn (a : Nat) (vs : List Pixel)
  /-- `WRM PAY_IN[a..a+len)`. -/
  | writePayIn (a : Nat) (vs : List Byte)
  /-- `WRM NAME_IN[a..a+len)`. -/
  | writeNameIn (a : Nat) (vs : List Byte)
  /-- `RD`: read register `n`. -/
  | readReg (n : Nat)
  /-- `RDM SPACE[a..a+n)`. -/
  | readSpace (sp : Space) (a n : Nat)
  /-- The reset input is asserted. -/
  | reset
  deriving DecidableEq, Repr

/-- What a read returned to the host: a register at its own width, or the cells of a range in ascending order. -/
inductive Response where
  | reg (n : Nat) (v : BitVec (regWidth n))
  | pixels (vs : List Pixel)
  | bytes (vs : List Byte)
  | codePoints (vs : List CodePoint)
  deriving DecidableEq, Repr

end Sys2Proof
end

