-- ==== Sys2Proof/WellFormed.lean ====
section
/-! DEFINITION. Well-formedness: which command words are legal (30_encoding.md R92), which instructions are
well-formed (all: a command has no operand field, R90, R93) and which 21-bit values a code point cell holds
(10_state.md R43). -/

namespace Sys2Proof

/-- "the word is legal exactly when 1 ≤ c ≤ 4 as a 32-bit unsigned integer" (30_encoding.md R92). -/
def legalWord (c : BitVec 32) : Bool := decide (1 ≤ c.toNat) && decide (c.toNat ≤ 4)

/-- Every command is well-formed: it has no register field, immediate or mode bit (30_encoding.md R90). -/
def Instr.wf : Instr → Bool
  | .capacity => true
  | .encode => true
  | .decode => true
  | .detect => true

/-- A Unicode scalar value: 0 to 0x10FFFF without 0xD800 to 0xDFFF (10_state.md R43). -/
def scalarValue (cp : CodePoint) : Bool :=
  decide (cp.toNat < 0xD800) || (decide (0xDFFF < cp.toNat) && decide (cp.toNat ≤ 0x10FFFF))

end Sys2Proof
end

