-- ==== Sys2Proof/Decode.lean ====
section
/-! DEFINITION. The command word: decoder, encoder and the table-word entry (30_encoding.md R90 to R92). -/

namespace Sys2Proof

/-- Why a word is no command (30_encoding.md R92): a bit of ZERO is set, or OP is 0 or 5 to 15. -/
inductive DecodeError where
  | zeroFieldSet
  | reservedOp
  deriving DecidableEq, Repr

/-- ZERO, bits 31:4 of the command word (30_encoding.md R90). -/
def zeroField (c : BitVec 32) : BitVec 28 := c.extractLsb' 4 28

/-- OP, bits 3:0 of the command word (30_encoding.md R90). -/
def opField (c : BitVec 32) : BitVec 4 := c.extractLsb' 0 4

/-- The operation codes (30_encoding.md R91). -/
def decodeOp (op : BitVec 4) : Option Instr :=
  match op.toNat with
  | 1 => some .capacity
  | 2 => some .encode
  | 3 => some .decode
  | 4 => some .detect
  | _ => none

/-- Decoding a command word (30_encoding.md R92). -/
def decodeWord (c : BitVec 32) : Except DecodeError Instr :=
  if zeroField c ≠ 0#28 then .error .zeroFieldSet
  else match decodeOp (opField c) with
    | some i => .ok i
    | none => .error .reservedOp

/-- OP of a command (30_encoding.md R91). -/
def opOf : Instr → BitVec 4
  | .capacity => 1#4
  | .encode => 2#4
  | .decode => 3#4
  | .detect => 4#4

/-- The command word of a command: ZERO = 0 above OP (30_encoding.md R90, R91). -/
def encodeWord (i : Instr) : BitVec 32 := 0#28 ++ opOf i

/-- The command word made of the low `nbits` bits of `w`; every bit above them is 0. -/
def tableWord (nbits w : Nat) : BitVec 32 := BitVec.ofNat 32 (w % 2 ^ nbits)

/-- What the decoder reads from an opcode-table word of `nbits` bits; `none` where it refuses. -/
def decodeTableWord (nbits w : Nat) : Option Instr := (decodeWord (tableWord nbits w)).toOption

end Sys2Proof
end

