-- ==== Sys2Proof/Config.lean ====
section
/-! DEFINITION. What an instance of the block fixes (MAX_PIXELS) and the one free value of the model. -/

namespace Sys2Proof

/-- The parameters of an instance. REG_BUS needs no value: registers are reached whole and by number
(20_memory.md R65). -/
structure Config where
  /-- MAX_PIXELS, the number of pixel cells of PIX_IN and of PIX_OUT (00_scope.md R7, 20_memory.md R73). -/
  maxPixels : Nat
  deriving DecidableEq, Repr

/-- The spec's default: "default 65535 · 65535 (every legal w · h fits)" (00_scope.md R7). -/
def Config.default : Config := ⟨65535 * 65535⟩

/-- FREE VALUE: what a host read returns for the cell `index` of a space that holds no value (10_state.md R44,
93_implementation_defined.md U8: "any value"). It depends on the number of resets so far and the cell, so that
reading twice returns the same value if nothing wrote in between (20_memory.md R71). Byte and code point cells take
its low bits. Log entry 8. -/
opaque Config.unwrittenCell : (epoch : Nat) → Space → (index : Nat) → BitVec 24

end Sys2Proof
end

