-- ==== Sys2Proof/Machine/State.lean ====
section
/-! DEFINITION. The state of the block as plain data (10_state.md R20 to R47), the reasons a step can stop, and
the state after reset. -/

namespace Sys2Proof.Machine

/-- STATUS.STATE (10_state.md R23); the value 3 never occurs. -/
inductive Phase where
  | idle
  | busy
  | done
  deriving DecidableEq, Repr

/-- STATUS.ERR (60_exceptions.md R231); the codes 7 to 15 are never produced. -/
inductive ErrCode where
  | none
  | capacityExceeded
  | headerTooShort
  | noStegoHeader
  | corruptHeader
  | insufficientData
  | illegalCommand
  deriving DecidableEq, Repr

/-- The machine stops. -/
inductive Fault where
  /-- Raised by a host write or read of a PIX_IN or PIX_OUT range with an index at or beyond MAX_PIXELS: the
  instance has no such cell (00_scope.md R7). Safe: the model stops. Log entry 9. -/
  | noSuchPixelCell
  deriving DecidableEq, Repr

/-- There is no meaning for what was asked. -/
inductive Refusal where
  /-- Raised by an arm of `exec` for an instruction without a meaning yet; no arm uses it. Safe. -/
  | notModelled (mnemonic : String)
  /-- Raised by a command and by every host action but a read of STATUS and reset while STATE is BUSY
  (93_implementation_defined.md U7, 60_exceptions.md R248). Safe: the model refuses where the spec gives no meaning. -/
  | accessWhileBusy
  /-- Raised by ENCODE, DECODE and DETECT when w · h is greater than MAX_PIXELS (20_memory.md R73, U4). Safe. -/
  | imageBeyondMaxPixels
  /-- Raised by a command that would read a cell of this space that holds no value (10_state.md R44, U6). Safe. -/
  | cellHoldsNoValue (sp : Space)
  /-- Raised where `bitsToBytes` is called on a length that is no multiple of 8 (40_bit_serializer.md R122, U1); no
  command reaches it. Safe. -/
  | raggedBits
  deriving DecidableEq, Repr

/-- A memory space: the cells that hold a value, by index. An unlisted cell holds no value (10_state.md R44). -/
abbrev Memory (α : Type) := List (Nat × α)

/-- The canonical form: indices strictly rising. -/
abbrev Memory.wf {α : Type} (m : Memory α) : Prop := m.Pairwise (fun x y => x.1 < y.1)

/-- The nineteen result registers, numbers 6 to 24 (10_state.md R20, R27 to R35). -/
structure Results where
  outW : BitVec 16
  outH : BitVec 16
  capBits : BitVec 64
  capBytes : BitVec 64
  neededBits : BitVec 64
  usedBits : BitVec 64
  utilNum : BitVec 64
  utilDen : BitVec 64
  hdrBits : BitVec 64
  outNameLen : BitVec 16
  outPayLen : BitVec 32
  outFnameLen : BitVec 16
  ones : BitVec 64
  zeros : BitVec 64
  balE4 : BitVec 16
  flipE4 : BitVec 16
  scoreNum : BitVec 128
  scoreDen : BitVec 128
  note : BitVec 8
  deriving DecidableEq, Repr

/-- The cleared values: 0 everywhere, except 1 in UTIL_DEN and SCORE_DEN (10_state.md R36). -/
def Results.cleared : Results where
  outW := 0
  outH := 0
  capBits := 0
  capBytes := 0
  neededBits := 0
  usedBits := 0
  utilNum := 0
  utilDen := 1
  hdrBits := 0
  outNameLen := 0
  outPayLen := 0
  outFnameLen := 0
  ones := 0
  zeros := 0
  balE4 := 0
  flipE4 := 0
  scoreNum := 0
  scoreDen := 1
  note := 0

/-- The host's side of the interface: its coming actions, oldest first, and what its last read returned. The
model's own, not state of the block (30_encoding.md R95; log entries 2 and 4). -/
structure HostSide where
  queue : List HostAction
  response : Option Response
  deriving DecidableEq, Repr

/-- The state: registers 0 to 24, the seven spaces, the instance's parameters, and the model's own fields `host`
and `epoch` (how many resets there have been, log entry 8). -/
structure State where
  cmd : BitVec 32
  phase : Phase
  err : ErrCode
  width : BitVec 16
  height : BitVec 16
  payLen : BitVec 32
  nameLen : BitVec 32
  results : Results
  pixIn : Memory Pixel
  pixOut : Memory Pixel
  payIn : Memory Byte
  nameIn : Memory Byte
  payOut : Memory Byte
  nameOut : Memory Byte
  fnameOut : Memory CodePoint
  cfg : Config
  host : HostSide
  epoch : Nat
  deriving DecidableEq, Repr

/-- After reset (10_state.md R47): every register at its reset value, STATE = IDLE, ERR = 0, no cell holding a
value. The instance has the default MAX_PIXELS; the host has asked for nothing yet. -/
def State.reset : State where
  cmd := 0
  phase := .idle
  err := .none
  width := 0
  height := 0
  payLen := 0
  nameLen := 0
  results := Results.cleared
  pixIn := []
  pixOut := []
  payIn := []
  nameIn := []
  payOut := []
  nameOut := []
  fnameOut := []
  cfg := Config.default
  host := ⟨[], none⟩
  epoch := 0

/-- What a step or a meaning answers. -/
abbrev Out := Host.Outcome State Fault Refusal

/-- How a command's rule stops early: it raises an error of the block (60_exceptions.md R240), or the model has no
meaning to give. -/
inductive Stop where
  | raised (e : ErrCode)
  | refused (r : Refusal)
  deriving DecidableEq, Repr

end Sys2Proof.Machine
end

