-- ==== Sys2Proof/Machine/Ops.lean ====
section
/-! DEFINITION. The operations every rule uses: cells of a memory space, the start, error entry and end of a
command (60_exceptions.md R246, R240, R247), and the 24-bit form of a pixel (10_state.md R41). -/

namespace Sys2Proof.Machine

/-- The value of cell `a`, or `none` when it holds no value (10_state.md R44). -/
def readCell {α : Type} : Memory α → Nat → Option α
  | [], _ => none
  | (k, v) :: m, a => if k = a then some v else readCell m a

/-- `MemRead(SPACE, a, n)` (00_scope.md R10): the cells a to a+n−1 in one pass over the rising list, or `none` when
one of them holds no value. -/
def readCells {α : Type} : Memory α → Nat → Nat → Option (List α)
  | _, _, 0 => some []
  | [], _, _ + 1 => none
  | (k, v) :: m, a, n + 1 =>
    if k < a then readCells m a (n + 1)
    else if k = a then (readCells m (a + 1) n).map (v :: ·)
    else none

/-- The cells a, a+1, … with the values `vs`. -/
def cellBlock {α : Type} (a : Nat) : List α → Memory α
  | [] => []
  | v :: vs => (a, v) :: cellBlock (a + 1) vs

/-- `MemWrite(SPACE, a, n, vs)` (00_scope.md R10): the cells a to a+n−1 take the values `vs`; every other cell keeps
what it held. -/
def writeCells {α : Type} (a : Nat) (vs : List α) (m : Memory α) : Memory α :=
  m.filter (fun c => c.1 < a) ++ cellBlock a vs ++ m.filter (fun c => a + vs.length ≤ c.1)

/-- The 24-bit pixel cell `v`: R in bits 23:16, G in bits 15:8, B in bits 7:0 (10_state.md R41). -/
def pixelOfWord (v : BitVec 24) : Pixel := ⟨v.extractLsb' 16 8, v.extractLsb' 8 8, v.extractLsb' 0 8⟩

/-- The 24-bit word of a pixel (10_state.md R41). -/
def wordOfPixel (p : Pixel) : BitVec 24 := p.r ++ p.g ++ p.b

/-- Command start (60_exceptions.md R246): CMD <- c, STATE <- BUSY, ERR <- 0, the result registers are cleared. No
operand register and no cell changes. -/
def startCommand (c : BitVec 32) (s : State) : State :=
  { s with cmd := c, phase := .busy, err := .none, results := Results.cleared }

/-- Command end (60_exceptions.md R247): ERR <- the code, STATE <- DONE. -/
def endCommand (e : ErrCode) (s : State) : State := { s with err := e, phase := .done }

/-- The end of a command's rule: success ends the command in the state the rule left; a raise ends it in the state
`atRaise` that the writes before the raise made (60_exceptions.md R240); a refusal gives no next state. -/
def finishCommand (atRaise : State) : Except Stop State → Out
  | .ok t => .next (endCommand .none t)
  | .error (.raised e) => .next (endCommand e atRaise)
  | .error (.refused r) => .refused r

/-- One command word written to CMD as one atomic step (60_exceptions.md R249): refused while BUSY (R248), else the
common start and then `rule`. -/
def runCommand (c : BitVec 32) (rule : State → Out) (s : State) : Out :=
  if s.phase = .busy then .refused .accessWhileBusy else rule (startCommand c s)

/-- A word that is no command: the common start still happens, then the command ends with ERR = 6
(60_exceptions.md R238). -/
def illegalCommand (c : BitVec 32) (s : State) : Out :=
  runCommand c (fun s1 => .next (endCommand .illegalCommand s1)) s

end Sys2Proof.Machine
end

