-- ==== Sys2Proof/Machine/Operands.lean ====
section
/-! DEFINITION. The operands of a command: the operand registers as unsigned integers at full width and the input
cells (30_encoding.md R93), with the two conditions under which a command that reads cells is defined
(20_memory.md R73, 10_state.md R44). -/

namespace Sys2Proof.Machine

/-- `w = x[WIDTH]` (30_encoding.md R93). -/
def opWidth (s : State) : Nat := s.width.toNat

/-- `h = x[HEIGHT]` (30_encoding.md R93). -/
def opHeight (s : State) : Nat := s.height.toNat

/-- `payLen = x[PAY_LEN]` (30_encoding.md R93). -/
def opPayLen (s : State) : Nat := s.payLen.toNat

/-- `nameLenIn = x[NAME_LEN]` (30_encoding.md R93). -/
def opNameLenIn (s : State) : Nat := s.nameLen.toNat

/-- NAME_MAX (00_scope.md R6). -/
def nameMax : Nat := 65535

/-- `N = min(nameLenIn, 65535)` (41_header_codec.md R131). -/
def nameLenUsed (nameLenIn : Nat) : Nat := min nameLenIn nameMax

/-- The number of pixels, w · h (20_memory.md R66). -/
def pixelCount (s : State) : Nat := opWidth s * opHeight s

/-- The `n` first cells of an input space; a cell without value makes the command one that has no meaning
(10_state.md R44, 93_implementation_defined.md U6). -/
def inputCells {α : Type} (sp : Space) (m : Memory α) (n : Nat) : Except Stop (List α) :=
  match readCells m 0 n with
  | some vs => .ok vs
  | none => .error (.refused (.cellHoldsNoValue sp))

/-- The image, PIX_IN cells 0 to w·h − 1 in row-major order (20_memory.md R66, R70). -/
def inputImage (s : State) : Except Stop (List Pixel) := inputCells .pixIn s.pixIn (pixelCount s)

/-- The payload, PAY_IN cells 0 to PAY_LEN − 1 (10_state.md R25). -/
def inputPayload (s : State) : Except Stop (List Byte) := inputCells .payIn s.payIn (opPayLen s)

/-- The filename bytes used, NAME_IN cells 0 to min(NAME_LEN, 65535) − 1 (10_state.md R26). -/
def inputName (s : State) : Except Stop (List Byte) :=
  inputCells .nameIn s.nameIn (nameLenUsed (opNameLenIn s))

/-- The rule of a command that reads pixels: refused when w · h is greater than MAX_PIXELS (20_memory.md R73). -/
def withinMaxPixels (rule : State → Out) (s : State) : Out :=
  if s.cfg.maxPixels < pixelCount s then .refused .imageBeyondMaxPixels else rule s

end Sys2Proof.Machine
end

