-- ==== Sys2Proof/Machine/Capacity.lean ====
section
/-! DEFINITION. The capacity counter: the function and the command CAPACITY (42_capacity.md R150, R151). -/

namespace Sys2Proof.Machine

/-- Capacity in bits, 3 · w · h (42_capacity.md R150). -/
def capacityBits (w h : Nat) : Nat := 3 * w * h

/-- Capacity in whole bytes, (3 · w · h) div 8 (42_capacity.md R150). -/
def capacityBytes (w h : Nat) : Nat := capacityBits w h / 8

/-- The rule of CAPACITY after the common start (42_capacity.md R151). -/
def capacityRule (s : State) : Out :=
  .next (endCommand .none { s with results := { s.results with
    capBits := BitVec.ofNat 64 (capacityBits (opWidth s) (opHeight s))
    capBytes := BitVec.ofNat 64 (capacityBytes (opWidth s) (opHeight s)) } })

/-- CAPACITY, command word 0x00000001 (42_capacity.md R151). -/
def execCapacity (s : State) : Out := runCommand (encodeWord .capacity) capacityRule s

end Sys2Proof.Machine
end

