-- ==== Sys2Proof/Machine/BitSerializer.lean ====
section
/-! DEFINITION. The bit serializer: bytesToBits and bitsToBytes, most significant bit first (40_bit_serializer.md
R120 to R122). -/

namespace Sys2Proof.Machine

/-- The 8 bits of a byte, bit 7 first (40_bit_serializer.md R120). -/
def byteBits (b : Byte) : Bitstream :=
  [b.getLsbD 7, b.getLsbD 6, b.getLsbD 5, b.getLsbD 4, b.getLsbD 3, b.getLsbD 2, b.getLsbD 1, b.getLsbD 0]

/-- `bytesToBits(data)` (40_bit_serializer.md R120). -/
def bytesToBits (data : List Byte) : Bitstream := data.flatMap byteBits

/-- The number whose binary digits are `bits`, the first the most significant: `v = 2·v + bit` over the list
(40_bit_serializer.md R121). -/
def bitsValue (bits : Bitstream) : Nat := bits.foldl (fun v b => 2 * v + b.toNat) 0

/-- `bitsToBytes(bits)` (40_bit_serializer.md R121); `none` where the length is no multiple of 8, for which it has no
meaning and must not truncate or pad (R122). -/
def bitsToBytes : Bitstream → Option (List Byte)
  | [] => some []
  | b7 :: b6 :: b5 :: b4 :: b3 :: b2 :: b1 :: b0 :: rest =>
    (bitsToBytes rest).map (BitVec.ofNat 8 (bitsValue [b7, b6, b5, b4, b3, b2, b1, b0]) :: ·)
  | _ => none

end Sys2Proof.Machine
end

