-- ==== Sys2Proof/Machine/HeaderCodec.lean ====
section
/-! DEFINITION. The header codec: packHeader, unpackHeader and utf8_lossy (41_header_codec.md R130 to R141). -/

namespace Sys2Proof.Machine

/-- MAGIC, the 5 bytes of `"STEG1"` (00_scope.md R6, 30_encoding.md R100). -/
def magic : List Byte := [0x53#8, 0x54#8, 0x45#8, 0x47#8, 0x31#8]

/-- FIXED_HDR_BYTES, 5 + 2 + 4 (00_scope.md R6). -/
def fixedHeaderBytes : Nat := 11

/-- `u16be(v)` (00_scope.md R10). -/
def u16be (v : Nat) : List Byte := [BitVec.ofNat 8 (v / 2 ^ 8), BitVec.ofNat 8 v]

/-- `u32be(v)` (00_scope.md R10). -/
def u32be (v : Nat) : List Byte :=
  [BitVec.ofNat 8 (v / 2 ^ 24), BitVec.ofNat 8 (v / 2 ^ 16), BitVec.ofNat 8 (v / 2 ^ 8), BitVec.ofNat 8 v]

/-- `be(bs)`: the first byte is the most significant (00_scope.md R10). -/
def beValue (bs : List Byte) : Nat := bs.foldl (fun v b => 256 * v + b.toNat) 0

/-- `l[a..b)` (00_scope.md R9). -/
def slice {α : Type} (l : List α) (a b : Nat) : List α := (l.take b).drop a

/-- `packHeader(nameBytes, nameLenIn, payLen)`: magic, u16be(N), u32be(payLen), the first N name bytes, with
N = min(nameLenIn, 65535) (41_header_codec.md R130, R131). -/
def packHeader (nameBytes : List Byte) (nameLenIn payLen : Nat) : List Byte :=
  magic ++ u16be (nameLenUsed nameLenIn) ++ u32be payLen ++ nameBytes.take (nameLenUsed nameLenIn)

/-- `headerBits = 8 · (11 + N)` (30_encoding.md R102). -/
def headerBitsOf (n : Nat) : Nat := 8 * (fixedHeaderBytes + n)

/-- What a first byte of a UTF-8 sequence asks for (41_header_codec.md R141). -/
inductive Utf8Lead where
  /-- A one-byte sequence. -/
  | single
  /-- `need` continuation bytes, the first in lo..hi; `cp` holds the lead byte's own bits. -/
  | multi (need lo hi cp : Nat)
  /-- 0x80..0xC1 and 0xF5..0xFF start nothing. -/
  | invalid
  deriving DecidableEq, Repr

/-- The lead-byte table of 41_header_codec.md R141. -/
def utf8Lead (b0 : Nat) : Utf8Lead :=
  if b0 ≤ 0x7F then .single
  else if 0xC2 ≤ b0 ∧ b0 ≤ 0xDF then .multi 1 0x80 0xBF (b0 % 0x20)
  else if b0 = 0xE0 then .multi 2 0xA0 0xBF (b0 % 0x10)
  else if 0xE1 ≤ b0 ∧ b0 ≤ 0xEC ∨ 0xEE ≤ b0 ∧ b0 ≤ 0xEF then .multi 2 0x80 0xBF (b0 % 0x10)
  else if b0 = 0xED then .multi 2 0x80 0x9F (b0 % 0x10)
  else if b0 = 0xF0 then .multi 3 0x90 0xBF (b0 % 0x08)
  else if 0xF1 ≤ b0 ∧ b0 ≤ 0xF3 then .multi 3 0x80 0xBF (b0 % 0x08)
  else if b0 = 0xF4 then .multi 3 0x80 0x8F (b0 % 0x08)
  else .invalid

/-- The inner loop of 41_header_codec.md R141: take up to `need` continuation bytes, the next one legal in lo..hi and
the ones after it in 0x80..0xBF. Answers the code point built so far, whether all were taken, and the bytes not
taken. -/
def utf8Continue : (need lo hi cp : Nat) → List Byte → Nat × Bool × List Byte
  | 0, _, _, cp, bs => (cp, true, bs)
  | _ + 1, _, _, cp, [] => (cp, false, [])
  | need + 1, lo, hi, cp, c :: bs =>
    if c.toNat < lo ∨ hi < c.toNat then (cp, false, c :: bs)
    else utf8Continue need 0x80 0xBF (cp * 0x40 + c.toNat % 0x40) bs

/-- U+FFFD, the replacement character (41_header_codec.md R141). -/
def replacementChar : CodePoint := 0xFFFD#21

/-- The outer loop of 41_header_codec.md R141. Each pass emits one code point and consumes at least one byte, so
`fuel` passes suffice for `fuel` bytes. -/
def utf8Loop : (fuel : Nat) → List Byte → List CodePoint
  | 0, _ => []
  | _ + 1, [] => []
  | fuel + 1, b0 :: bs =>
    match utf8Lead b0.toNat with
    | .single => BitVec.ofNat 21 b0.toNat :: utf8Loop fuel bs
    | .invalid => replacementChar :: utf8Loop fuel bs
    | .multi need lo hi cp =>
      match utf8Continue need lo hi cp bs with
      | (cp', true, rest) => BitVec.ofNat 21 cp' :: utf8Loop fuel rest
      | (_, false, rest) => replacementChar :: utf8Loop fuel rest

/-- `utf8_lossy(b)` (41_header_codec.md R141). -/
def utf8Lossy (bs : List Byte) : List CodePoint := utf8Loop bs.length bs

/-- What `unpackHeader` returns (41_header_codec.md R135). -/
structure Header where
  nameBytes : List Byte
  filename : List CodePoint
  payloadLen : Nat
  headerBits : Nat
  deriving DecidableEq, Repr

/-- `bitsToBytes` as a step of a rule: a ragged length has no meaning (40_bit_serializer.md R122). -/
def bytesOfSpan (bits : Bitstream) : Except Stop (List Byte) :=
  match bitsToBytes bits with
  | some bs => .ok bs
  | none => .error (.refused .raggedBits)

/-- Steps 3 to 5 of `unpackHeader`, from the 11 fixed bytes (41_header_codec.md R138 to R140). -/
def unpackVariable (bits : Bitstream) (fixed : List Byte) : Except Stop Header :=
  let n := beValue (slice fixed 5 7)
  let headerBits := headerBitsOf n
  if bits.length < headerBits then .error (.raised .corruptHeader)
  else match bytesOfSpan (slice bits (8 * fixedHeaderBytes) headerBits) with
    | .error e => .error e
    | .ok nameBytes => .ok ⟨nameBytes, utf8Lossy nameBytes, beValue (slice fixed 7 11), headerBits⟩

/-- `unpackHeader(bits)` (41_header_codec.md R135): the five steps in their order, each check made only if every
earlier one passed. -/
def unpackHeader (bits : Bitstream) : Except Stop Header :=
  if bits.length < 8 * fixedHeaderBytes then .error (.raised .headerTooShort)
  else match bytesOfSpan (slice bits 0 (8 * fixedHeaderBytes)) with
    | .error e => .error e
    | .ok fixed =>
      if slice fixed 0 5 ≠ magic then .error (.raised .noStegoHeader)
      else unpackVariable bits fixed

end Sys2Proof.Machine
end

