-- ==== Sys2Proof/Machine/Decoder.lean ====
section
/-! DEFINITION. The LSB extraction decoder: the command DECODE (44_decoder.md R180 to R192). -/

namespace Sys2Proof.Machine

/-- The LSBs of a pixel, R then G then B (44_decoder.md R181). -/
def pixelLsbs (p : Pixel) : Bitstream := [p.r.getLsbD 0, p.g.getLsbD 0, p.b.getLsbD 0]

/-- The extracted stream of 3·w·h bits (44_decoder.md R181). -/
def extract (image : List Pixel) : Bitstream := image.flatMap pixelLsbs

/-- The writes of a successful DECODE (44_decoder.md R187). -/
def decodeWrites (hdr : Header) (payload : List Byte) (s : State) : State :=
  { s with
    nameOut := writeCells 0 hdr.nameBytes s.nameOut
    fnameOut := writeCells 0 hdr.filename s.fnameOut
    payOut := writeCells 0 payload s.payOut
    results := { s.results with
      hdrBits := BitVec.ofNat 64 hdr.headerBits
      outNameLen := BitVec.ofNat 16 hdr.nameBytes.length
      outFnameLen := BitVec.ofNat 16 hdr.filename.length
      outPayLen := BitVec.ofNat 32 hdr.payloadLen } }

/-- Steps 4 to 6 of DECODE, once the header is parsed (44_decoder.md R183 to R187). -/
def decodePayload (bits : Bitstream) (hdr : Header) (s : State) : Except Stop State :=
  let neededBits := hdr.headerBits + 8 * hdr.payloadLen
  if bits.length < neededBits then .error (.raised .insufficientData)
  else match bytesOfSpan (slice bits hdr.headerBits neededBits) with
    | .error e => .error e
    | .ok payload => .ok (decodeWrites hdr payload s)

/-- DECODE as a rule that may stop early (44_decoder.md R180): the whole image is extracted first. -/
def decodeBody (s : State) : Except Stop State :=
  match inputImage s with
  | .error e => .error e
  | .ok image =>
    match unpackHeader (extract image) with
    | .error e => .error e
    | .ok hdr => decodePayload (extract image) hdr s

/-- The rule of DECODE after the common start; nothing is written before a raise (44_decoder.md R188). -/
def decodeRule (s : State) : Out := finishCommand s (decodeBody s)

/-- DECODE, command word 0x00000003 (44_decoder.md R180). -/
def execDecode (s : State) : Out := runCommand (encodeWord .decode) (withinMaxPixels decodeRule) s

end Sys2Proof.Machine
end

