-- ==== Sys2Proof/Machine/Detector.lean ====
section
/-! DEFINITION. The LSB statistical detector: the command DETECT (45_detector.md R200 to R220). A rational n/d is the
pair (n, d) of naturals. -/

namespace Sys2Proof.Machine

/-- The 3-bit code of a pixel, R_lsb<<2 | G_lsb<<1 | B_lsb (45_detector.md R205). -/
def pixelCode (p : Pixel) : BitVec 3 :=
  BitVec.ofBool (p.r.getLsbD 0) ++ BitVec.ofBool (p.g.getLsbD 0) ++ BitVec.ofBool (p.b.getLsbD 0)

/-- The number of 1 bits of a 3-bit code (00_scope.md R8). -/
def codePopcount (v : BitVec 3) : Nat := (v.getLsbD 0).toNat + (v.getLsbD 1).toNat + (v.getLsbD 2).toNat

/-- `ones`: the number of channel LSBs that are 1, three samples a pixel (45_detector.md R201). -/
def imageOnes (image : List Pixel) : Nat :=
  (image.map fun p => (p.r.getLsbD 0).toNat + (p.g.getLsbD 0).toNat + (p.b.getLsbD 0).toNat).sum

/-- The flips of one adjacent pair, popcount(code xor code) (45_detector.md R205). -/
def pairFlips (p q : Pixel) : Nat := codePopcount (pixelCode p ^^^ pixelCode q)

/-- The flips of one row: each pair (x−1, x) with x ≥ 1 (45_detector.md R205). -/
def rowFlips : List Pixel → Nat
  | [] => 0
  | [_] => 0
  | p :: q :: rest => pairFlips p q + rowFlips (q :: rest)

/-- `flips` over `h` rows of `w` pixels; no pair spans two rows (45_detector.md R205). -/
def imageFlips (w : Nat) : (h : Nat) → List Pixel → Nat
  | 0, _ => 0
  | h + 1, image => rowFlips (image.take w) + imageFlips w h (image.drop w)

/-- `comparisons = h·(w−1)·3`, 0 if w ≤ 1 (45_detector.md R206). -/
def comparisons (w h : Nat) : Nat := if 2 ≤ w then 3 * h * (w - 1) else 0

/-- `lsbBalance`, 1/2 when there are no samples (45_detector.md R202, R203). -/
def lsbBalance (ones total : Nat) : Nat × Nat := if total = 0 then (1, 2) else (ones, total)

/-- `abs(a − b)` on naturals (00_scope.md R8). -/
def absDiff (a b : Nat) : Nat := (a - b) + (b - a)

/-- `balanceScore = 1 − 2·|1/2 − lsbBalance|` in integers (45_detector.md R204). -/
def balanceScore (ones total : Nat) : Nat × Nat :=
  if total = 0 then (1, 1) else (total - absDiff total (2 * ones), total)

/-- `flipRate`, 0 when there are no comparisons (45_detector.md R207). -/
def flipRate (flips comps : Nat) : Nat × Nat := if comps = 0 then (0, 1) else (flips, comps)

/-- `flipScore = min(1, 2 · flipRate)` in integers (45_detector.md R208). -/
def flipScore (flips comps : Nat) : Nat × Nat := if comps = 0 then (0, 1) else (min comps (2 * flips), comps)

/-- `round4(n, d)`: n/d to ten-thousandths, an exact tie to the even neighbour (45_detector.md R209). -/
def round4 (n d : Nat) : Nat :=
  let q := 10000 * n / d
  let r := 10000 * n % d
  if 2 * r < d then q
  else if 2 * r > d then q + 1
  else if q % 2 = 0 then q else q + 1

/-- The score (3/5) · balanceScore + (2/5) · flipScore as an unreduced fraction (45_detector.md R211, R213). -/
def scorePair (bs fs : Nat × Nat) : Nat × Nat := (3 * bs.1 * fs.2 + 2 * fs.1 * bs.2, 5 * bs.2 * fs.2)

/-- The total number of samples, T = 3 · w · h (45_detector.md R201). -/
def totalSamples (w h : Nat) : Nat := 3 * w * h

/-- The writes of DETECT: the score and the details record (45_detector.md R200, R215). -/
def detectWrites (image : List Pixel) (s : State) : State :=
  let total := totalSamples (opWidth s) (opHeight s)
  let ones := imageOnes image
  let flips := imageFlips (opWidth s) (opHeight s) image
  let comps := comparisons (opWidth s) (opHeight s)
  let balance := lsbBalance ones total
  let rate := flipRate flips comps
  let score := scorePair (balanceScore ones total) (flipScore flips comps)
  { s with results := { s.results with
    outW := s.width
    outH := s.height
    ones := BitVec.ofNat 64 ones
    zeros := BitVec.ofNat 64 (total - ones)
    balE4 := BitVec.ofNat 16 (round4 balance.1 balance.2)
    flipE4 := BitVec.ofNat 16 (round4 rate.1 rate.2)
    scoreNum := BitVec.ofNat 128 score.1
    scoreDen := BitVec.ofNat 128 score.2
    note := 1 } }

/-- DETECT as a rule that may stop early; it raises no error (45_detector.md R216). -/
def detectBody (s : State) : Except Stop State :=
  match inputImage s with
  | .error e => .error e
  | .ok image => .ok (detectWrites image s)

/-- The rule of DETECT after the common start (45_detector.md R200). -/
def detectRule (s : State) : Out := finishCommand s (detectBody s)

/-- DETECT, command word 0x00000004 (45_detector.md R200). -/
def execDetect (s : State) : Out := runCommand (encodeWord .detect) (withinMaxPixels detectRule) s

end Sys2Proof.Machine
end

