-- ==== Sys2Proof/Machine/Encoder.lean ====
section
/-! DEFINITION. The LSB embedding encoder: the command ENCODE (43_encoder.md R160 to R171). -/

namespace Sys2Proof.Machine

/-- `(v and 0xFE) or bit` (43_encoder.md R160, R164). -/
def setLsb (v : Byte) (bit : Bool) : Byte := (v &&& 0xFE#8) ||| (if bit then 1#8 else 0#8)

/-- One written pixel, the next three bits in the order R, G, B (43_encoder.md R164). -/
def embedPixel (p : Pixel) (b0 b1 b2 : Bool) : Pixel := ⟨setLsb p.r b0, setLsb p.g b1, setLsb p.b b2⟩

/-- The pixel walk (43_encoder.md R164, R165): up to three bits a pixel in the order R, G, B; a channel for which the
stream is exhausted gets 0 in the last written pixel; the pixels after it are untouched. -/
def embed : List Pixel → Bitstream → List Pixel
  | [], _ => []
  | p :: ps, [] => p :: ps
  | p :: ps, [b0] => embedPixel p b0 false false :: ps
  | p :: ps, [b0, b1] => embedPixel p b0 b1 false :: ps
  | p :: ps, b0 :: b1 :: b2 :: bits => embedPixel p b0 b1 b2 :: embed ps bits

/-- `totalBits = 8 · (11 + N + payLen)` from the two length registers (43_encoder.md R161). -/
def frameBits (s : State) : Nat := 8 * (fixedHeaderBytes + nameLenUsed (opNameLenIn s) + opPayLen s)

/-- The utilization `usedBits / capacityBits` as a pair, 0/1 when the capacity is 0 (43_encoder.md R168). -/
def utilization (usedBits capBits : Nat) : Nat × Nat := if capBits = 0 then (0, 1) else (usedBits, capBits)

/-- The writes ENCODE makes before its check: CAP_BITS and NEEDED_BITS (43_encoder.md R162). -/
def encodeReport (s : State) : State :=
  { s with results := { s.results with
    capBits := BitVec.ofNat 64 (capacityBits (opWidth s) (opHeight s))
    neededBits := BitVec.ofNat 64 (frameBits s) } }

/-- The writes of a successful ENCODE: the new image and the stats record (43_encoder.md R166 to R168). -/
def encodeWrites (image : List Pixel) (name payload : List Byte) (s : State) : State :=
  let full := packHeader name (opNameLenIn s) (opPayLen s) ++ payload
  let util := utilization (frameBits s) (capacityBits (opWidth s) (opHeight s))
  { s with
    pixOut := writeCells 0 (embed image (bytesToBits full)) s.pixOut
    results := { s.results with
      outW := s.width
      outH := s.height
      usedBits := BitVec.ofNat 64 (frameBits s)
      utilNum := BitVec.ofNat 64 util.1
      utilDen := BitVec.ofNat 64 util.2 } }

/-- ENCODE after the report: the capacity check first, then the reads, then the writes (43_encoder.md R160). -/
def encodeBody (s : State) : Except Stop State :=
  if frameBits s > capacityBits (opWidth s) (opHeight s) then .error (.raised .capacityExceeded)
  else match inputName s with
    | .error e => .error e
    | .ok name =>
      match inputPayload s with
      | .error e => .error e
      | .ok payload =>
        match inputImage s with
        | .error e => .error e
        | .ok image => .ok (encodeWrites image name payload s)

/-- The rule of ENCODE after the common start (43_encoder.md R160). -/
def encodeRule (s : State) : Out := finishCommand (encodeReport s) (encodeBody (encodeReport s))

/-- ENCODE, command word 0x00000002 (43_encoder.md R160). -/
def execEncode (s : State) : Out := runCommand (encodeWord .encode) (withinMaxPixels encodeRule) s

end Sys2Proof.Machine
end

