-- ==== Sys2Proof/Machine/Dispatch.lean ====
section
/-! DEFINITION. The commands, one arm each (30_encoding.md R91). -/

namespace Sys2Proof.Machine

def exec (i : Instr) (s : State) : Host.Outcome State Fault Refusal :=
  match i with
  | .capacity => Sys2Proof.Machine.execCapacity s
  | .encode => Sys2Proof.Machine.execEncode s
  | .decode => Sys2Proof.Machine.execDecode s
  | .detect => Sys2Proof.Machine.execDetect s

end Sys2Proof.Machine
end

