-- ==== Sys2Proof/Machine/Flags.lean ====
section
/-! DEFINITION. The only status a command leaves: the STATUS word (10_state.md R23, R38). The block has no condition
codes. -/

namespace Sys2Proof.Machine

/-- The STATE code, STATUS bits 1:0 (10_state.md R23). -/
def stateCode : Phase → BitVec 2
  | .idle => 0
  | .busy => 1
  | .done => 2

/-- The ERR code, STATUS bits 7:4 (60_exceptions.md R231). -/
def errCode : ErrCode → BitVec 4
  | .none => 0
  | .capacityExceeded => 1
  | .headerTooShort => 2
  | .noStegoHeader => 3
  | .corruptHeader => 4
  | .insufficientData => 5
  | .illegalCommand => 6

/-- The STATUS word: STATE in bits 1:0, ERR in bits 7:4, bits 3:2 and 31:8 read 0 (10_state.md R23). -/
def statusWord (p : Phase) (e : ErrCode) : BitVec 32 := 0#24 ++ errCode e ++ 0#2 ++ stateCode p

end Sys2Proof.Machine
end

