-- ==== Sys2Proof/Machine/HostPort.lean ====
section
/-! DEFINITION. The register and memory interface as the host sees it: reads, writes, reset, and the write of CMD that
brings the next command word (10_state.md R20 to R22, R40, R44; 60_exceptions.md R245; 70_reset_and_hazards.md R260). -/

namespace Sys2Proof.Machine

/-- Reading register `n` whole (10_state.md R20, R23); a number outside the table reads 0 (R21). -/
def readRegister (s : State) : (n : Nat) → BitVec (regWidth n)
  | 0 => s.cmd
  | 1 => statusWord s.phase s.err
  | 2 => s.width
  | 3 => s.height
  | 4 => s.payLen
  | 5 => s.nameLen
  | 6 => s.results.outW
  | 7 => s.results.outH
  | 8 => s.results.capBits
  | 9 => s.results.capBytes
  | 10 => s.results.neededBits
  | 11 => s.results.usedBits
  | 12 => s.results.utilNum
  | 13 => s.results.utilDen
  | 14 => s.results.hdrBits
  | 15 => s.results.outNameLen
  | 16 => s.results.outPayLen
  | 17 => s.results.outFnameLen
  | 18 => s.results.ones
  | 19 => s.results.zeros
  | 20 => s.results.balE4
  | 21 => s.results.flipE4
  | 22 => s.results.scoreNum
  | 23 => s.results.scoreDen
  | 24 => s.results.note
  | _ => 0

/-- Writing register `n` other than CMD: the operand registers take the value; a write to a read-only register or to
a number outside the table is ignored (10_state.md R21). A write of CMD is `nextCommand`'s. -/
def writeRegister (s : State) : (n : Nat) → BitVec (regWidth n) → State
  | 2, v => { s with width := v }
  | 3, v => { s with height := v }
  | 4, v => { s with payLen := v }
  | 5, v => { s with nameLen := v }
  | _, _ => s

/-- The cells a to a+n−1 as the host reads them: a cell without value reads as the free value (10_state.md R44,
93_implementation_defined.md U8). -/
def hostCells {α : Type} (ofWord : BitVec 24 → α) (epoch : Nat) (sp : Space) (m : Memory α) (a n : Nat) : List α :=
  (List.range n).map fun i => (readCell m (a + i)).getD (ofWord (Config.unwrittenCell epoch sp (a + i)))

/-- What `RDM SPACE[a..a+n)` returns. -/
def readSpaceCells (s : State) (sp : Space) (a n : Nat) : Response :=
  match sp with
  | .pixIn => .pixels (hostCells pixelOfWord s.epoch .pixIn s.pixIn a n)
  | .pixOut => .pixels (hostCells pixelOfWord s.epoch .pixOut s.pixOut a n)
  | .payIn => .bytes (hostCells (BitVec.setWidth 8) s.epoch .payIn s.payIn a n)
  | .nameIn => .bytes (hostCells (BitVec.setWidth 8) s.epoch .nameIn s.nameIn a n)
  | .payOut => .bytes (hostCells (BitVec.setWidth 8) s.epoch .payOut s.payOut a n)
  | .nameOut => .bytes (hostCells (BitVec.setWidth 8) s.epoch .nameOut s.nameOut a n)
  | .fnameOut => .codePoints (hostCells (BitVec.setWidth 21) s.epoch .fnameOut s.fnameOut a n)

/-- Does the space hold the cells a to a+n−1? PIX_IN and PIX_OUT have MAX_PIXELS cells (00_scope.md R7); the spec
gives the other spaces no size (log entry 10). -/
def cellsExist (cfg : Config) (sp : Space) (a n : Nat) : Bool :=
  match sp with
  | .pixIn => n == 0 || decide (a + n ≤ cfg.maxPixels)
  | .pixOut => n == 0 || decide (a + n ≤ cfg.maxPixels)
  | .payIn => true
  | .nameIn => true
  | .payOut => true
  | .nameOut => true
  | .fnameOut => true

/-- The host has read `r`; nothing of the block changes (20_memory.md R71). -/
def respond (r : Response) (s : State) : State := { s with host := { s.host with response := some r } }

/-- Reset, in any state (70_reset_and_hazards.md R260 to R262): the reset state. The instance's parameters and the
host's side stay; the epoch advances, so that cells read before and after a reset are unrelated (R261). -/
def resetBlock (s : State) : State :=
  { State.reset with cfg := s.cfg, host := s.host, epoch := s.epoch + 1 }

/-- An access that is outside the protocol while BUSY (10_state.md R21, 60_exceptions.md R245). -/
def whenOwned (s : State) (o : Out) : Out := if s.phase = .busy then .refused .accessWhileBusy else o

/-- An access to a range of cells: outside the protocol while BUSY, and a fault where the cells do not exist. -/
def onCells (s : State) (sp : Space) (a n : Nat) (t : State) : Out :=
  whenOwned s (if cellsExist s.cfg sp a n then .next t else .fault .noSuchPixelCell)

/-- One host action other than a write of CMD, in state `s` (60_exceptions.md R245). -/
def hostAct (act : HostAction) (s : State) : Out :=
  match act with
  | .writeReg n v => whenOwned s (.next (writeRegister s n v))
  | .writePixIn a vs => onCells s .pixIn a vs.length { s with pixIn := writeCells a vs s.pixIn }
  | .writePayIn a vs => onCells s .payIn a vs.length { s with payIn := writeCells a vs s.payIn }
  | .writeNameIn a vs => onCells s .nameIn a vs.length { s with nameIn := writeCells a vs s.nameIn }
  | .readReg n =>
    if n = 1 then .next (respond (.reg n (readRegister s n)) s)
    else whenOwned s (.next (respond (.reg n (readRegister s n)) s))
  | .readSpace sp a n => onCells s sp a n (respond (readSpaceCells s sp a n) s)
  | .reset => .next (resetBlock s)

/-- The host's queue with its first action taken. -/
def dropAction (s : State) : State := { s with host := { s.host with queue := s.host.queue.tail } }

/-- The fetch: the word the host's next action writes to CMD, and the state with that action taken (10_state.md R22);
`none` when its next action is another one, or it has none. -/
def nextCommand (s : State) : Option (BitVec 32 × State) :=
  match s.host.queue with
  | .writeReg 0 c :: _ => some (c, dropAction s)
  | _ => none

/-- A step without a command: the host's next action, or, when it has none, nothing: between commands the block is
idle and keeps all state (60_exceptions.md R257). -/
def hostStep (s : State) : Out :=
  match s.host.queue with
  | [] => .next s
  | act :: _ => hostAct act (dropAction s)

/-- The host's next action becomes a write of the word `c` to CMD. -/
def putCommand (c : BitVec 32) (s : State) : State :=
  { s with host := { s.host with queue := .writeReg 0 c :: s.host.queue } }

end Sys2Proof.Machine
end

