-- ==== Sys2Proof/Machine/Step.lean ====
section
/-! DEFINITION. One step: one action of the host (10_state.md R37, 60_exceptions.md R249). -/

namespace Sys2Proof.Machine

/-- When the host's next action writes CMD, the word is decoded and the command runs, or the illegal word ends at
once with IllegalCommand (30_encoding.md R92); any other action is the host port's. -/
def step (s : State) : Host.Outcome State Fault Refusal :=
  match nextCommand s with
  | none => hostStep s
  | some (c, s1) =>
    match decodeWord c with
    | .ok i => exec i s1
    | .error _ => illegalCommand c s1

/-- `s` with the opcode-table word placed where `step` fetches: as the host's next action, a write of CMD. -/
def State.withFetchWord (s : State) (nbits w : Nat) : State := putCommand (tableWord nbits w) s

end Sys2Proof.Machine
end

