-- ==== Sys2Proof/Safety.lean ====
section
/-! DEFINITION. The terms claims are made in: slots of an image, what a stream spells, UTF-8 as the Unicode table has
it, when a command is defined, and the invariant of the machine. -/

namespace Sys2Proof.Machine

/-- A pixel of value (0, 0, 0), for reading a list past its end in a claim. -/
def blackPixel : Pixel := ⟨0, 0, 0⟩

/-- The pixel with index `p` of an image. -/
def pixelAt (image : List Pixel) (p : Nat) : Pixel := image.getD p blackPixel

/-- Channel `c` of a pixel: 0 is R, 1 is G, 2 is B (30_encoding.md R104). -/
def channel (p : Pixel) (c : Nat) : Byte := if c = 0 then p.r else if c = 1 then p.g else p.b

/-- The value of slot `i`: the LSB of channel `i mod 3` of the pixel with index `i div 3` (30_encoding.md R104);
`none` where the image has no such slot. -/
def slotValue (image : List Pixel) (i : Nat) : Option Bool :=
  image[i / 3]?.map fun p => (channel p (i % 3)).getLsbD 0

/-- The frame bit `i`: bit 7 − (i mod 8) of frame byte i div 8 (43_encoder.md R163). -/
def frameBit (full : List Byte) (i : Nat) : Bool := (full.getD (i / 8) 0).getLsbD (7 - i % 8)

/-- The pixels that receive bits, (totalBits + 2) div 3 (43_encoder.md R160). -/
def pixelsWritten (totalBits : Nat) : Nat := (totalBits + 2) / 3

/-- The first 40 bits of every frame, written out (30_encoding.md R101). -/
def magicBits : Bitstream :=
  [false, true, false, true, false, false, true, true] ++ [false, true, false, true, false, true, false, false] ++
  [false, true, false, false, false, true, false, true] ++ [false, true, false, false, false, true, true, true] ++
  [false, false, true, true, false, false, false, true]

/-- N, stream bits 40 to 55, bit 40 its most significant (30_encoding.md R101). -/
def streamNameLen (bits : Bitstream) : Nat := bitsValue (slice bits 40 56)

/-- P, stream bits 56 to 87, bit 56 its most significant (30_encoding.md R101). -/
def streamPayLen (bits : Bitstream) : Nat := bitsValue (slice bits 56 88)

/-- The UTF-8 bytes of a Unicode scalar value (the Unicode Standard's encoding, 93_implementation_defined.md G2). -/
def utf8Encode (cp : CodePoint) : List Byte :=
  let n := cp.toNat
  if n < 0x80 then [BitVec.ofNat 8 n]
  else if n < 0x800 then [BitVec.ofNat 8 (0xC0 + n / 0x40), BitVec.ofNat 8 (0x80 + n % 0x40)]
  else if n < 0x10000 then
    [BitVec.ofNat 8 (0xE0 + n / 0x1000), BitVec.ofNat 8 (0x80 + n / 0x40 % 0x40), BitVec.ofNat 8 (0x80 + n % 0x40)]
  else
    [BitVec.ofNat 8 (0xF0 + n / 0x40000), BitVec.ofNat 8 (0x80 + n / 0x1000 % 0x40),
      BitVec.ofNat 8 (0x80 + n / 0x40 % 0x40), BitVec.ofNat 8 (0x80 + n % 0x40)]

/-- The bytes `m` begin the UTF-8 encoding of some Unicode scalar value. -/
def beginsScalar (m : List Byte) : Prop := ∃ cp : CodePoint, scalarValue cp = true ∧ m <+: utf8Encode cp

/-- The bytes `m ++ rest` begin with no encoding of a scalar value, and `m` is their maximal ill-formed subpart
(41_header_codec.md R141): one byte, or the beginning of an encoding, that the next byte does not go on with. -/
def illFormedSubpart (m rest : List Byte) : Prop :=
  m ≠ [] ∧ (∀ cp, scalarValue cp = true → ¬ utf8Encode cp <+: m ++ rest) ∧ (m.length = 1 ∨ beginsScalar m) ∧
  ∀ c, rest.head? = some c → ¬ beginsScalar (m ++ [c])

/-- The two images have the same channel LSBs (44_decoder.md R189, 45_detector.md R220). -/
def sameLsbs (a b : List Pixel) : Prop := a.map pixelCode = b.map pixelCode

/-- The state a command leaves when it raises `e` before any write of its own (60_exceptions.md R240, R246, R247). -/
def failedWith (i : Instr) (e : ErrCode) (s : State) : State :=
  { s with cmd := encodeWord i, phase := .done, err := e, results := Results.cleared }

/-- STATE is IDLE or DONE and, for a command that reads pixels, w · h is at most MAX_PIXELS (20_memory.md R73). -/
def State.mayRun (s : State) : Prop := s.phase ≠ .busy ∧ pixelCount s ≤ s.cfg.maxPixels

/-- Every input cell below `n` holds a value. -/
def cellsHeld {α : Type} (m : Memory α) (n : Nat) : Prop := ∀ a, a < n → (readCell m a).isSome

/-- Every input cell that a command reads holds a value (20_memory.md R70, 70_reset_and_hazards.md R263). An ENCODE that
fails its capacity check reads none. -/
def State.suppliedFor (s : State) : Instr → Prop
  | .capacity => True
  | .encode => frameBits s > capacityBits (opWidth s) (opHeight s) ∨
      (cellsHeld s.pixIn (pixelCount s) ∧ cellsHeld s.payIn (opPayLen s) ∧
        cellsHeld s.nameIn (nameLenUsed (opNameLenIn s)))
  | .decode => cellsHeld s.pixIn (pixelCount s)
  | .detect => cellsHeld s.pixIn (pixelCount s)

/-- The input space has a cell without value among the cells ENCODE uses of it (10_state.md R40); DECODE and DETECT use
those of PIX_IN. No command reads an output space. -/
def State.lacksCell (s : State) : Space → Prop
  | .pixIn => ¬ cellsHeld s.pixIn (pixelCount s)
  | .payIn => ¬ cellsHeld s.payIn (opPayLen s)
  | .nameIn => ¬ cellsHeld s.nameIn (nameLenUsed (opNameLenIn s))
  | .pixOut => False
  | .payOut => False
  | .nameOut => False
  | .fnameOut => False

/-- `vs` is an answer to a host read of the cells a to a+n−1: one value a cell, and what the cell holds where it holds a
value (10_state.md R44). -/
def answersRead {α : Type} (m : Memory α) (a n : Nat) (vs : List α) : Prop :=
  vs.length = n ∧ ∀ i v, i < n → readCell m (a + i) = some v → vs[i]? = some v

/-- Every space is in its canonical form. -/
def State.memWf (s : State) : Prop :=
  s.pixIn.wf ∧ s.pixOut.wf ∧ s.payIn.wf ∧ s.nameIn.wf ∧ s.payOut.wf ∧ s.nameOut.wf ∧ s.fnameOut.wf

/-- The codes a command can end with (60_exceptions.md R242). -/
def errAllowed : Instr → ErrCode → Bool
  | .capacity, e => decide (e = .none)
  | .encode, e => decide (e = .none ∨ e = .capacityExceeded)
  | .decode, e => decide (e = .none ∨ e = .headerTooShort ∨ e = .noStegoHeader ∨ e = .corruptHeader ∨ e = .insufficientData)
  | .detect, e => decide (e = .none)

/-- ERR fits the word in CMD (60_exceptions.md R242): IllegalCommand for an illegal word. -/
def errFits (c : BitVec 32) (e : ErrCode) : Bool :=
  match decodeWord c with
  | .ok i => errAllowed i e
  | .error _ => decide (e = .illegalCommand)

/-- The invariant of the machine between two host actions. -/
structure State.Inv (s : State) : Prop where
  /-- Every space is in canonical form. -/
  memWf : s.memWf
  /-- BUSY is never the state between two host actions (60_exceptions.md R248). -/
  notBusy : s.phase ≠ .busy
  /-- IDLE: no command since reset (10_state.md R23): CMD is 0, ERR is 0, the results are cleared and no output cell
  holds a value. -/
  idleClean : s.phase = .idle → s.cmd = 0 ∧ s.err = .none ∧ s.results = Results.cleared ∧
    s.pixOut = [] ∧ s.payOut = [] ∧ s.nameOut = [] ∧ s.fnameOut = []
  /-- DONE: ERR is a code the command in CMD can end with (60_exceptions.md R242). -/
  doneErr : s.phase = .done → errFits s.cmd s.err = true
  /-- UTIL_DEN is never 0 (10_state.md R30). -/
  utilDenPos : 0 < s.results.utilDen.toNat
  /-- 0 ≤ SCORE_NUM ≤ SCORE_DEN and SCORE_DEN ≥ 1 (10_state.md R34). -/
  scoreFraction : s.results.scoreNum.toNat ≤ s.results.scoreDen.toNat ∧ 1 ≤ s.results.scoreDen.toNat
  /-- BAL_E4 and FLIP_E4 are in 0 to 10000 (10_state.md R33). -/
  detailsRange : s.results.balE4.toNat ≤ 10000 ∧ s.results.flipE4.toNat ≤ 10000
  /-- OUT_FNAME_LEN never exceeds OUT_NAME_LEN (10_state.md R31). -/
  fnameLen : s.results.outFnameLen.toNat ≤ s.results.outNameLen.toNat
  /-- Every cell of FNAME_OUT that holds a value holds a Unicode scalar value (10_state.md R43). -/
  fnameScalars : ∀ c ∈ s.fnameOut, scalarValue c.2 = true
  /-- No pixel cell at or beyond MAX_PIXELS holds a value (00_scope.md R7). -/
  pixelsExist : ∀ a, (a ∈ s.pixIn.map Prod.fst ∨ a ∈ s.pixOut.map Prod.fst) → a < s.cfg.maxPixels

end Sys2Proof.Machine
end

