-- ==== Sys2Proof/Certificates/Slice0/Obligations.lean ====
section
/-! DEFINITION. The statements for the provers. Each docstring cites the rule of spec/ it formalises. Where a statement
is about a step, the host's queue and its last response are the model's own fields (log entries 2 and 4). -/

open Sys2Proof Sys2Proof.Machine

/-! ## Reset and the host interface -/

/-- R47: after reset every register reads 0 except UTIL_DEN (13) and SCORE_DEN (23), which read 1; STATE is IDLE and
ERR 0; no cell of any space holds a value. -/
def Obligations.ResetRegistersAndCells : Prop :=
  (∀ n, readRegister State.reset n = BitVec.ofNat (regWidth n) (if n = 13 ∨ n = 23 then 1 else 0)) ∧
  State.reset.phase = .idle ∧ State.reset.err = .none ∧
  ∀ a, readCell State.reset.pixIn a = none ∧ readCell State.reset.pixOut a = none ∧
    readCell State.reset.payIn a = none ∧ readCell State.reset.nameIn a = none ∧
    readCell State.reset.payOut a = none ∧ readCell State.reset.nameOut a = none ∧
    readCell State.reset.fnameOut a = none

/-- R260: reset in any state, BUSY included, gives every register its reset value, STATE IDLE and ERR 0, and leaves no
cell of any space a value. -/
def Obligations.ResetFromAnyState : Prop :=
  ∀ (s : State) (rest : List HostAction), s.host.queue = .reset :: rest →
    ∃ t, step s = .next t ∧ t.phase = .idle ∧ t.err = .none ∧
      (∀ n, readRegister t n = BitVec.ofNat (regWidth n) (if n = 13 ∨ n = 23 then 1 else 0)) ∧
      ∀ a, readCell t.pixIn a = none ∧ readCell t.pixOut a = none ∧ readCell t.payIn a = none ∧
        readCell t.nameIn a = none ∧ readCell t.payOut a = none ∧ readCell t.nameOut a = none ∧
        readCell t.fnameOut a = none

/-- R23 and R231: the STATUS word is STATE in bits 1:0, ERR in bits 7:4 and 0 in bits 3:2 and 31:8. -/
def Obligations.StatusWordFields : Prop :=
  ∀ s : State,
    (readRegister s 1).toNat =
      (match s.phase with | .idle => 0 | .busy => 1 | .done => 2) +
      16 * (match s.err with
        | .none => 0 | .capacityExceeded => 1 | .headerTooShort => 2 | .noStegoHeader => 3
        | .corruptHeader => 4 | .insufficientData => 5 | .illegalCommand => 6)

/-- R21, R24, R25, R26: outside BUSY a write of WIDTH, HEIGHT, PAY_LEN or NAME_LEN stores the value and changes no
other state of the block. -/
def Obligations.OperandRegisterWrites : Prop :=
  ∀ (s : State) (rest : List HostAction), s.phase ≠ .busy →
    (∀ v, s.host.queue = .writeReg 2 v :: rest →
      step s = .next { s with width := v, host := ⟨rest, s.host.response⟩ }) ∧
    (∀ v, s.host.queue = .writeReg 3 v :: rest →
      step s = .next { s with height := v, host := ⟨rest, s.host.response⟩ }) ∧
    (∀ v, s.host.queue = .writeReg 4 v :: rest →
      step s = .next { s with payLen := v, host := ⟨rest, s.host.response⟩ }) ∧
    (∀ v, s.host.queue = .writeReg 5 v :: rest →
      step s = .next { s with nameLen := v, host := ⟨rest, s.host.response⟩ })

/-- R21: "A write to an RO register is ignored: no state changes", and a write to a number outside the table is
ignored (the width of such a write is log entry 11's). -/
def Obligations.ReadOnlyWritesIgnored : Prop :=
  ∀ (s : State) (n : Nat) (v : BitVec (regWidth n)) (rest : List HostAction), s.phase ≠ .busy →
    (n = 1 ∨ 6 ≤ n) → s.host.queue = .writeReg n v :: rest →
    step s = .next { s with host := ⟨rest, s.host.response⟩ }

/-- R20, R21: outside BUSY every register is read whole by its number; a number above 24 reads 0. The response is the
model's own field (log entry 4). -/
def Obligations.RegisterReads : Prop :=
  (∀ (s : State) (n : Nat) (rest : List HostAction), s.phase ≠ .busy → s.host.queue = .readReg n :: rest →
    step s = .next { s with host := ⟨rest, some (.reg n (readRegister s n))⟩ }) ∧
  (∀ (s : State) (n : Nat), 24 < n → readRegister s n = 0) ∧
  (∀ s : State, readRegister s 0 = s.cmd ∧ readRegister s 2 = s.width ∧ readRegister s 3 = s.height ∧
    readRegister s 4 = s.payLen ∧ readRegister s 5 = s.nameLen ∧ readRegister s 6 = s.results.outW ∧
    readRegister s 7 = s.results.outH ∧ readRegister s 8 = s.results.capBits ∧
    readRegister s 9 = s.results.capBytes ∧ readRegister s 10 = s.results.neededBits ∧
    readRegister s 11 = s.results.usedBits ∧ readRegister s 12 = s.results.utilNum ∧
    readRegister s 13 = s.results.utilDen ∧ readRegister s 14 = s.results.hdrBits ∧
    readRegister s 15 = s.results.outNameLen ∧ readRegister s 16 = s.results.outPayLen ∧
    readRegister s 17 = s.results.outFnameLen ∧ readRegister s 18 = s.results.ones ∧
    readRegister s 19 = s.results.zeros ∧ readRegister s 20 = s.results.balE4 ∧
    readRegister s 21 = s.results.flipE4 ∧ readRegister s 22 = s.results.scoreNum ∧
    readRegister s 23 = s.results.scoreDen ∧ readRegister s 24 = s.results.note)

/-- R21, R245, U7: while BUSY the host may read STATUS; every other action but reset is refused by name. That the
refusal has this name is the model's. -/
def Obligations.BusyAllowsStatusReadOnly : Prop :=
  ∀ (s : State) (act : HostAction) (rest : List HostAction), s.phase = .busy → s.host.queue = act :: rest →
    act ≠ .reset →
    step s = if act = .readReg 1 then .next { s with host := ⟨rest, some (.reg 1 (readRegister s 1))⟩ }
      else .refused .accessWhileBusy

/-- R40, R44, R245 (derived): a host write of a range of PIX_IN, PAY_IN or NAME_IN gives exactly these cells the values
and leaves every other cell, space and register as it was. For PIX_IN the cells must exist (MAX_PIXELS, R7).
The model's choice, no rule of the spec: that a write of PAY_IN or NAME_IN completes at EVERY index, because these spaces
have a cell at every index (log entry 10, DESIGN CHOICE, unsafe for an instance with smaller spaces), and that a range of
cells is written in one step (log entry 14, DESIGN CHOICE). -/
def Obligations.InputCellWrites : Prop :=
  ∀ (s : State) (a : Nat) (rest : List HostAction), s.phase ≠ .busy →
    (∀ vs : List Pixel, a + vs.length ≤ s.cfg.maxPixels → s.host.queue = .writePixIn a vs :: rest →
      ∃ m, step s = .next { s with pixIn := m, host := ⟨rest, s.host.response⟩ } ∧
        ∀ x, readCell m x = if a ≤ x ∧ x < a + vs.length then vs[x - a]? else readCell s.pixIn x) ∧
    (∀ vs : List Byte, s.host.queue = .writePayIn a vs :: rest →
      ∃ m, step s = .next { s with payIn := m, host := ⟨rest, s.host.response⟩ } ∧
        ∀ x, readCell m x = if a ≤ x ∧ x < a + vs.length then vs[x - a]? else readCell s.payIn x) ∧
    (∀ vs : List Byte, s.host.queue = .writeNameIn a vs :: rest →
      ∃ m, step s = .next { s with nameIn := m, host := ⟨rest, s.host.response⟩ } ∧
        ∀ x, readCell m x = if a ≤ x ∧ x < a + vs.length then vs[x - a]? else readCell s.nameIn x)

/-- R40, R44, R245, U8 (derived): a host read of a range of any of the seven spaces returns, cell by cell and in order,
the value the cell of THAT space holds, and changes nothing of the block. Where a cell holds none the free value of log
entry 8 stands, about which nothing is said. For PIX_IN and PIX_OUT the cells must exist (MAX_PIXELS, R7; log entry 9).
The model's choice, no rule of the spec: that a read of the other five spaces completes at EVERY index (log entry 10,
DESIGN CHOICE, unsafe for an instance with smaller spaces), that an input cell without value is read like an output cell
(log entry 8), and that a range is read in one step (log entry 14, DESIGN CHOICE). -/
def Obligations.SpaceReads : Prop :=
  ∀ (s : State) (a n : Nat) (rest : List HostAction), s.phase ≠ .busy →
    let answer (r : Response) : Out := .next { s with host := ⟨rest, some r⟩ }
    let exist : Prop := n = 0 ∨ a + n ≤ s.cfg.maxPixels
    (exist → s.host.queue = .readSpace .pixIn a n :: rest →
      ∃ vs, step s = answer (.pixels vs) ∧ answersRead s.pixIn a n vs) ∧
    (exist → s.host.queue = .readSpace .pixOut a n :: rest →
      ∃ vs, step s = answer (.pixels vs) ∧ answersRead s.pixOut a n vs) ∧
    (s.host.queue = .readSpace .payIn a n :: rest →
      ∃ vs, step s = answer (.bytes vs) ∧ answersRead s.payIn a n vs) ∧
    (s.host.queue = .readSpace .nameIn a n :: rest →
      ∃ vs, step s = answer (.bytes vs) ∧ answersRead s.nameIn a n vs) ∧
    (s.host.queue = .readSpace .payOut a n :: rest →
      ∃ vs, step s = answer (.bytes vs) ∧ answersRead s.payOut a n vs) ∧
    (s.host.queue = .readSpace .nameOut a n :: rest →
      ∃ vs, step s = answer (.bytes vs) ∧ answersRead s.nameOut a n vs) ∧
    (s.host.queue = .readSpace .fnameOut a n :: rest →
      ∃ vs, step s = answer (.codePoints vs) ∧ answersRead s.fnameOut a n vs)

/-- R71: reads change no state of the block (the response is the host's), a second read of the same register or range
returns the same response, and no command writes PIX_IN, PAY_IN or NAME_IN. -/
def Obligations.ReadsHaveNoSideEffect : Prop :=
  (∀ (s t : State) (act : HostAction) (rest : List HostAction), s.host.queue = act :: rest →
    ((∃ n, act = .readReg n) ∨ ∃ sp a n, act = .readSpace sp a n) → step s = .next t →
    t = { s with host := t.host } ∧
    ∀ u, t.host.queue = act :: u → ∃ r, step t = .next r ∧ r.host.response = t.host.response) ∧
  (∀ (i : Instr) (s t : State), exec i s = .next t →
    t.pixIn = s.pixIn ∧ t.payIn = s.payIn ∧ t.nameIn = s.nameIn)

/-- R257 (derived): with no action of the host the block keeps all state. R257 says so of the block between commands
(IDLE and DONE). That the same holds in a BUSY state is the model's choice, no rule of the spec: a command is one step, so
no rule runs a BUSY state on (log entry 1, DEDUCED; R249 has a running command reach DONE by itself), and that the host
may have no coming action is log entry 2 (DESIGN CHOICE). -/
def Obligations.IdleKeepsState : Prop :=
  ∀ s : State, s.host.queue = [] → step s = .next s

/-! ## The command word -/

/-- R92: the word is legal exactly when 1 ≤ c ≤ 4. -/
def Obligations.LegalWordsAreOneToFour : Prop :=
  ∀ c : BitVec 32, (∃ i, decodeWord c = .ok i) ↔ 1 ≤ c.toNat ∧ c.toNat ≤ 4

/-- R90, R91: decoding and encoding agree in both directions on all 2^32 words: a word decodes to a command exactly
when it is that command's word. -/
def Obligations.DecodeEncodeAgree : Prop :=
  ∀ (c : BitVec 32) (i : Instr), i.wf = true → (decodeWord c = .ok i ↔ c = encodeWord i)

/-- R91: the four command words of the table. -/
def Obligations.TableWordsDecode : Prop :=
  decodeWord 0x00000001#32 = .ok .capacity ∧ decodeWord 0x00000002#32 = .ok .encode ∧
  decodeWord 0x00000003#32 = .ok .decode ∧ decodeWord 0x00000004#32 = .ok .detect

/-- R22, R92, R249: when the host's next action writes a word that decodes to a command, the step is that command's
`exec` with the action taken from the host's queue. -/
def Obligations.StepRunsDecodedCommand : Prop :=
  ∀ (s : State) (c : BitVec 32) (i : Instr) (rest : List HostAction),
    s.host.queue = .writeReg 0 c :: rest → decodeWord c = .ok i →
    step s = exec i { s with host := ⟨rest, s.host.response⟩ }

/-- R238: an illegal word executes no command: CMD holds it, the result registers are cleared, STATE is DONE and ERR
is IllegalCommand; nothing else of the block changes. -/
def Obligations.IllegalWordEndsWithError : Prop :=
  ∀ (s : State) (c : BitVec 32) (rest : List HostAction), s.phase ≠ .busy →
    s.host.queue = .writeReg 0 c :: rest → ¬(1 ≤ c.toNat ∧ c.toNat ≤ 4) →
    step s = .next { s with
      cmd := c, phase := .done, err := .illegalCommand, results := Results.cleared, host := ⟨rest, s.host.response⟩ }

/-- R248: a write to CMD while BUSY is refused. -/
def Obligations.CommandWhileBusyRefused : Prop :=
  ∀ (i : Instr) (s : State), s.phase = .busy → exec i s = .refused .accessWhileBusy

/-! ## CAPACITY -/

/-- R151: CAPACITY completes in every state outside BUSY, with this next state; nothing else changes. -/
def Obligations.CapacityCommand : Prop :=
  ∀ s : State, s.phase ≠ .busy →
    exec .capacity s = .next { s with
      cmd := 1#32, phase := .done, err := .none
      results := { Results.cleared with
        capBits := BitVec.ofNat 64 (3 * s.width.toNat * s.height.toNat)
        capBytes := BitVec.ofNat 64 (3 * s.width.toNat * s.height.toNat / 8) } }

/-- R150, R152: the register values are the exact numbers 3·w·h and (3·w·h) div 8, below 2^34: nothing wraps. -/
def Obligations.CapacityRegistersExact : Prop :=
  ∀ s : State, s.phase ≠ .busy → ∃ t, exec .capacity s = .next t ∧
    t.results.capBits.toNat = 3 * s.width.toNat * s.height.toNat ∧
    t.results.capBytes.toNat = 3 * s.width.toNat * s.height.toNat / 8 ∧
    t.results.capBits.toNat < 2 ^ 34

/-- R154: CAPACITY gives the same results before and after a successful ENCODE with the same WIDTH and HEIGHT. -/
def Obligations.EncodeKeepsCapacity : Prop :=
  ∀ s t : State, exec .encode s = .next t → ∃ a b, exec .capacity s = .next a ∧ exec .capacity t = .next b ∧
    a.results = b.results

/-! ## ENCODE -/

/-- R162, R233: with totalBits > 3·w·h ENCODE ends with CapacityExceeded, reports both counts, and reads and writes no
cell, whatever the cells hold. -/
def Obligations.EncodeCapacityExceeded : Prop :=
  ∀ s : State, s.mayRun →
    3 * s.width.toNat * s.height.toNat < 8 * (11 + min s.nameLen.toNat 65535 + s.payLen.toNat) →
    exec .encode s = .next { s with
      cmd := 2#32, phase := .done, err := .capacityExceeded
      results := { Results.cleared with
        capBits := BitVec.ofNat 64 (3 * s.width.toNat * s.height.toNat)
        neededBits := BitVec.ofNat 64 (8 * (11 + min s.nameLen.toNat 65535 + s.payLen.toNat)) } }

/-- R160 to R168: a frame that fits is embedded: PIX_OUT takes the new image and the stats record is written; nothing
else changes. The walk and the header are the model's `embed` and `packHeader`, which EmbedSlots and PackHeaderLayout
characterise. -/
def Obligations.EncodeSucceeds : Prop :=
  ∀ (s : State) (image : List Pixel) (name payload : List Byte), s.mayRun →
    8 * (11 + min s.nameLen.toNat 65535 + s.payLen.toNat) ≤ 3 * s.width.toNat * s.height.toNat →
    readCells s.nameIn 0 (min s.nameLen.toNat 65535) = some name →
    readCells s.payIn 0 s.payLen.toNat = some payload →
    readCells s.pixIn 0 (s.width.toNat * s.height.toNat) = some image →
    exec .encode s = .next { s with
      cmd := 2#32, phase := .done, err := .none
      pixOut := writeCells 0
        (embed image (bytesToBits (packHeader name s.nameLen.toNat s.payLen.toNat ++ payload))) s.pixOut
      results := { Results.cleared with
        outW := s.width
        outH := s.height
        capBits := BitVec.ofNat 64 (3 * s.width.toNat * s.height.toNat)
        neededBits := BitVec.ofNat 64 (8 * (11 + min s.nameLen.toNat 65535 + s.payLen.toNat))
        usedBits := BitVec.ofNat 64 (8 * (11 + min s.nameLen.toNat 65535 + s.payLen.toNat))
        utilNum := BitVec.ofNat 64 (8 * (11 + min s.nameLen.toNat 65535 + s.payLen.toNat))
        utilDen := BitVec.ofNat 64 (3 * s.width.toNat * s.height.toNat) } }

/-- R106, R164, R165: by slot index, the walk leaves the frame bit, then 0 in the padding slots of the last written
pixel, then what the input image held. -/
def Obligations.EmbedSlots : Prop :=
  ∀ (image : List Pixel) (bits : Bitstream) (i : Nat), i < 3 * image.length →
    slotValue (embed image bits) i =
      if i < bits.length then bits[i]?
      else if i < 3 * pixelsWritten bits.length then some false
      else slotValue image i

/-- R164, R165, R169: the walk keeps the number of pixels, bits 7 to 1 of every channel, and all 24 bits of every pixel
with index (totalBits + 2) div 3 or more; a channel changes by at most 1. -/
def Obligations.EmbedKeepsUpperBits : Prop :=
  ∀ (image : List Pixel) (bits : Bitstream), (embed image bits).length = image.length ∧
    (∀ p c, (channel (pixelAt (embed image bits) p) c) >>> 1 = (channel (pixelAt image p) c) >>> 1) ∧
    (∀ p, pixelsWritten bits.length ≤ p → (embed image bits)[p]? = image[p]?) ∧
    (∀ p c, absDiff (channel (pixelAt (embed image bits) p) c).toNat (channel (pixelAt image p) c).toNat ≤ 1)

/-- R163, R164, R166: after a successful ENCODE every slot below totalBits of the image in PIX_OUT holds the frame bit
of its index, every cell of PIX_OUT at w·h and beyond is what it was, and PIX_IN is unchanged. -/
def Obligations.EncodedImageHoldsFrame : Prop :=
  ∀ (s t : State) (name payload : List Byte), exec .encode s = .next t → t.err = .none →
    readCells s.nameIn 0 (min s.nameLen.toNat 65535) = some name →
    readCells s.payIn 0 s.payLen.toNat = some payload →
    ∃ image, readCells t.pixOut 0 (s.width.toNat * s.height.toNat) = some image ∧
      (∀ i, i < 8 * (11 + min s.nameLen.toNat 65535 + s.payLen.toNat) →
        slotValue image i = some (frameBit (packHeader name s.nameLen.toNat s.payLen.toNat ++ payload) i)) ∧
      (∀ a, s.width.toNat * s.height.toNat ≤ a → readCell t.pixOut a = readCell s.pixOut a) ∧
      t.pixIn = s.pixIn

/-- R153: an ENCODE that ends succeeds exactly when the frame's bytes are at most the whole-byte capacity. -/
def Obligations.EncodeFitsByWholeBytes : Prop :=
  ∀ s t : State, exec .encode s = .next t →
    (t.err = .none ↔ 11 + min s.nameLen.toNat 65535 + s.payLen.toNat ≤ 3 * s.width.toNat * s.height.toNat / 8) ∧
    (t.err = .capacityExceeded ↔ 3 * s.width.toNat * s.height.toNat / 8 < 11 + min s.nameLen.toNat 65535 + s.payLen.toNat)

/-- R168: after a successful ENCODE 0 < UTIL_NUM ≤ UTIL_DEN, the exact totalBits over 3·w·h, and the ratio is 1 exactly
when the frame fills the capacity. -/
def Obligations.UtilizationIsExact : Prop :=
  ∀ s t : State, exec .encode s = .next t → t.err = .none →
    t.results.utilNum.toNat = 8 * (11 + min s.nameLen.toNat 65535 + s.payLen.toNat) ∧
    t.results.utilDen.toNat = 3 * s.width.toNat * s.height.toNat ∧
    0 < t.results.utilNum.toNat ∧ t.results.utilNum.toNat ≤ t.results.utilDen.toNat ∧
    t.results.usedBits = t.results.neededBits ∧ t.results.usedBits = t.results.utilNum

/-! ## The units -/

/-- R120: bit 8j + k of bytesToBits is bit 7 − k of byte j, and there are 8 bits a byte. -/
def Obligations.BytesToBitsIndex : Prop :=
  ∀ data : List Byte, (bytesToBits data).length = 8 * data.length ∧
    ∀ j k (hj : j < data.length), k < 8 → (bytesToBits data)[8 * j + k]? = some (data[j].getLsbD (7 - k))

/-- R123: the two operations are inverse to each other and both respect concatenation. -/
def Obligations.BitSerializerLaws : Prop :=
  (∀ d, bitsToBytes (bytesToBits d) = some d) ∧
  (∀ b, b.length % 8 = 0 → ∃ d, bitsToBytes b = some d ∧ bytesToBits d = b) ∧
  (∀ d e, bytesToBits (d ++ e) = bytesToBits d ++ bytesToBits e) ∧
  (∀ a b, a.length % 8 = 0 → b.length % 8 = 0 → ∃ d e, bitsToBytes a = some d ∧ bitsToBytes b = some e ∧
    bitsToBytes (a ++ b) = some (d ++ e))

/-- R122: bitsToBytes has no meaning on a length that is no multiple of 8, and no command calls it on one: no command
answers the refusal for it. -/
def Obligations.NoCommandPassesRaggedBits : Prop :=
  (∀ b, b.length % 8 ≠ 0 → bitsToBytes b = none) ∧
  (∀ (i : Instr) (s : State), exec i s ≠ .refused .raggedBits)

/-- R130, R131, R100: the packed header is the magic, N in two bytes, payLen in four, and the first N name bytes, with
N = min(nameLenIn, 65535). -/
def Obligations.PackHeaderLayout : Prop :=
  ∀ (name : List Byte) (nameLenIn payLen : Nat), payLen < 2 ^ 32 → min nameLenIn 65535 ≤ name.length →
    (packHeader name nameLenIn payLen).length = 11 + min nameLenIn 65535 ∧
    slice (packHeader name nameLenIn payLen) 0 5 = [0x53#8, 0x54#8, 0x45#8, 0x47#8, 0x31#8] ∧
    beValue (slice (packHeader name nameLenIn payLen) 5 7) = min nameLenIn 65535 ∧
    beValue (slice (packHeader name nameLenIn payLen) 7 11) = payLen ∧
    (packHeader name nameLenIn payLen).drop 11 = name.take (min nameLenIn 65535)

/-- R143: unpackHeader is the inverse of packHeader on every stream that begins with a packed header. -/
def Obligations.UnpackInvertsPack : Prop :=
  ∀ (name : List Byte) (nameLenIn payLen : Nat) (rest : Bitstream), payLen < 2 ^ 32 →
    min nameLenIn 65535 ≤ name.length →
    unpackHeader (bytesToBits (packHeader name nameLenIn payLen) ++ rest) =
      .ok ⟨name.take (min nameLenIn 65535), utf8Lossy (name.take (min nameLenIn 65535)), payLen,
        8 * (11 + min nameLenIn 65535)⟩

/-- R141, R31, R43: the lossy decode emits at most one code point a byte, each a Unicode scalar value. -/
def Obligations.LossyDecodeEmitsScalars : Prop :=
  ∀ b : List Byte, (utf8Lossy b).length ≤ b.length ∧ ∀ cp ∈ utf8Lossy b, scalarValue cp = true

/-- R142 (b), and of (c) what it says of well-formed parts: a leading well-formed part decodes to its scalar values,
whatever follows; in particular the UTF-8 encoding of a text decodes to that text. What ill-formed parts decode to is
IllFormedUtf8Replaced. -/
def Obligations.WellFormedUtf8Decodes : Prop :=
  ∀ (t : List CodePoint) (rest : List Byte), (∀ cp ∈ t, scalarValue cp = true) →
    utf8Lossy (t.flatMap utf8Encode ++ rest) = t ++ utf8Lossy rest ∧ utf8Lossy (t.flatMap utf8Encode) = t

/-- R141, R142 (c) (derived: the policy is the spec's own decision D21): bytes that begin with no encoding of a scalar
value begin with a maximal ill-formed subpart, and it is replaced by one U+FFFD, the decode going on after it. With
WellFormedUtf8Decodes this fixes the decode of every byte sequence. -/
def Obligations.IllFormedUtf8Replaced : Prop :=
  (∀ m rest : List Byte, illFormedSubpart m rest → utf8Lossy (m ++ rest) = replacementChar :: utf8Lossy rest) ∧
  (∀ b : List Byte, b ≠ [] → (∀ cp, scalarValue cp = true → ¬ utf8Encode cp <+: b) →
    ∃ m rest, b = m ++ rest ∧ illFormedSubpart m rest)

/-! ## DECODE -/

/-- R181: the extracted stream has one bit a slot, bit i the value of slot i. -/
def Obligations.ExtractReadsSlots : Prop :=
  ∀ image : List Pixel, (extract image).length = 3 * image.length ∧ ∀ i, (extract image)[i]? = slotValue image i

/-- R185 rows 1 to 4, R188: the failing outcomes of DECODE in their order, as functions of the extracted stream; on
each no cell changes and the result registers are cleared. -/
def Obligations.DecodeFailures : Prop :=
  ∀ (s : State) (image : List Pixel), s.mayRun →
    readCells s.pixIn 0 (s.width.toNat * s.height.toNat) = some image →
    let bits := extract image
    let fail (e : ErrCode) : Out := .next { s with cmd := 3#32, phase := .done, err := e, results := Results.cleared }
    (bits.length < 88 → exec .decode s = fail .headerTooShort) ∧
    (88 ≤ bits.length → slice bits 0 40 ≠ magicBits → exec .decode s = fail .noStegoHeader) ∧
    (88 ≤ bits.length → slice bits 0 40 = magicBits → bits.length < 8 * (11 + streamNameLen bits) →
      exec .decode s = fail .corruptHeader) ∧
    (88 ≤ bits.length → slice bits 0 40 = magicBits → 8 * (11 + streamNameLen bits) ≤ bits.length →
      bits.length < 8 * (11 + streamNameLen bits + streamPayLen bits) → exec .decode s = fail .insufficientData)

/-- R185 row 5, R186, R187: otherwise DECODE succeeds: the name and payload bytes are the stream's, their lengths the
header's fields, the filename the lossy decode, and nothing else changes. -/
def Obligations.DecodeSucceeds : Prop :=
  ∀ (s : State) (image : List Pixel), s.mayRun →
    readCells s.pixIn 0 (s.width.toNat * s.height.toNat) = some image →
    let bits := extract image
    let n := streamNameLen bits
    let p := streamPayLen bits
    slice bits 0 40 = magicBits → 8 * (11 + n + p) ≤ bits.length →
    ∃ name payload : List Byte, name.length = n ∧ payload.length = p ∧
      bytesToBits name = slice bits 88 (88 + 8 * n) ∧
      bytesToBits payload = slice bits (8 * (11 + n)) (8 * (11 + n + p)) ∧
      exec .decode s = .next { s with
        cmd := 3#32, phase := .done, err := .none
        nameOut := writeCells 0 name s.nameOut
        fnameOut := writeCells 0 (utf8Lossy name) s.fnameOut
        payOut := writeCells 0 payload s.payOut
        results := { Results.cleared with
          hdrBits := BitVec.ofNat 64 (8 * (11 + n))
          outNameLen := BitVec.ofNat 16 n
          outFnameLen := BitVec.ofNat 16 (utf8Lossy name).length
          outPayLen := BitVec.ofNat 32 p } }

/-- R190: the round trip. A DECODE, in any state with the same dimensions whose PIX_IN holds the image a successful
ENCODE left in PIX_OUT, succeeds and returns the payload and the first min(nameLenIn, 65535) name bytes; and when the
name is the UTF-8 encoding of a text of at most 65535 bytes, FNAME_OUT is that text. -/
def Obligations.EncodeDecodeRoundTrip : Prop :=
  ∀ (s t u : State) (name payload : List Byte), exec .encode s = .next t → t.err = .none →
    readCells s.nameIn 0 (min s.nameLen.toNat 65535) = some name →
    readCells s.payIn 0 s.payLen.toNat = some payload →
    u.phase ≠ .busy → u.cfg = s.cfg → u.width = s.width → u.height = s.height →
    readCells u.pixIn 0 (s.width.toNat * s.height.toNat) = readCells t.pixOut 0 (s.width.toNat * s.height.toNat) →
    ∃ v, exec .decode u = .next v ∧ v.err = .none ∧
      v.results.outPayLen = s.payLen ∧ readCells v.payOut 0 s.payLen.toNat = some payload ∧
      v.results.outNameLen.toNat = min s.nameLen.toNat 65535 ∧
      readCells v.nameOut 0 (min s.nameLen.toNat 65535) = some name ∧
      v.results.hdrBits.toNat = 8 * (11 + min s.nameLen.toNat 65535) ∧
      ∀ text : List CodePoint, (∀ cp ∈ text, scalarValue cp = true) → s.nameLen.toNat ≤ 65535 →
        name = text.flatMap utf8Encode →
        v.results.outFnameLen.toNat = text.length ∧ readCells v.fnameOut 0 text.length = some text

/-- R189 (j): DECODE reads only slot values: two images with equal channel LSBs give equal results and output cells. -/
def Obligations.DecodeReadsOnlyLsbs : Prop :=
  ∀ (s t : State) (m : Memory Pixel) (a b : List Pixel), exec .decode s = .next t →
    readCells s.pixIn 0 (s.width.toNat * s.height.toNat) = some a →
    readCells m 0 (s.width.toNat * s.height.toNat) = some b → sameLsbs a b →
    exec .decode { s with pixIn := m } = .next { t with pixIn := m }

/-- R273: DECODE depends on WIDTH and HEIGHT only through their product: the same cells under other dimensions with as
many pixels give the same answer. -/
def Obligations.DecodeUsesFlatIndex : Prop :=
  ∀ (s t : State) (w h : BitVec 16), w.toNat * h.toNat = s.width.toNat * s.height.toNat → exec .decode s = .next t →
    exec .decode { s with width := w, height := h } = .next { t with width := w, height := h }

/-! ## DETECT -/

/-- R200, R213, R215, R216: DETECT completes for every image whose cells hold values, with this next state; nothing else
changes. The counts are characterised by DetectCountsSlots and FlipsAreRowPairs. -/
def Obligations.DetectCommand : Prop :=
  ∀ (s : State) (image : List Pixel), s.mayRun →
    readCells s.pixIn 0 (s.width.toNat * s.height.toNat) = some image →
    let total := 3 * s.width.toNat * s.height.toNat
    let ones := imageOnes image
    let flips := imageFlips s.width.toNat s.height.toNat image
    let comps := if 2 ≤ s.width.toNat then 3 * s.height.toNat * (s.width.toNat - 1) else 0
    let bs : Nat × Nat := if total = 0 then (1, 1) else (total - absDiff total (2 * ones), total)
    let fs : Nat × Nat := if comps = 0 then (0, 1) else (min comps (2 * flips), comps)
    exec .detect s = .next { s with
      cmd := 4#32, phase := .done, err := .none
      results := { Results.cleared with
        outW := s.width
        outH := s.height
        ones := BitVec.ofNat 64 ones
        zeros := BitVec.ofNat 64 (total - ones)
        balE4 := BitVec.ofNat 16 (if total = 0 then 5000 else round4 ones total)
        flipE4 := BitVec.ofNat 16 (if comps = 0 then 0 else round4 flips comps)
        scoreNum := BitVec.ofNat 128 (3 * bs.1 * fs.2 + 2 * fs.1 * bs.2)
        scoreDen := BitVec.ofNat 128 (5 * bs.2 * fs.2)
        note := 1 } }

/-- R201, R32: `ones` is the number of slots whose value is 1, and after every DETECT ONES + ZEROS = 3·w·h. -/
def Obligations.DetectCountsSlots : Prop :=
  (∀ image : List Pixel,
    imageOnes image = ((List.range (3 * image.length)).filter fun i => slotValue image i = some true).length) ∧
  (∀ s t : State, exec .detect s = .next t →
    t.results.ones.toNat + t.results.zeros.toNat = 3 * s.width.toNat * s.height.toNat)

/-- R205, R206: `flips` sums popcount(code xor code) over the pairs of horizontal neighbours of each row and no other
pair, and is at most `comparisons`. -/
def Obligations.FlipsAreRowPairs : Prop :=
  ∀ (w h : Nat) (image : List Pixel), image.length = w * h →
    imageFlips w h image =
      ((List.range h).map fun y => ((List.range (w - 1)).map fun x =>
        codePopcount (pixelCode (pixelAt image (y * w + x)) ^^^ pixelCode (pixelAt image (y * w + x + 1)))).sum).sum ∧
    imageFlips w h image ≤ comparisons w h

/-- R219: the flips of a pair are the sum over the three lanes of the differing LSBs. -/
def Obligations.FlipsLaneByLane : Prop :=
  ∀ p q : Pixel, codePopcount (pixelCode p ^^^ pixelCode q) =
    (if p.r.getLsbD 0 = q.r.getLsbD 0 then 0 else 1) + (if p.g.getLsbD 0 = q.g.getLsbD 0 then 0 else 1) +
    (if p.b.getLsbD 0 = q.b.getLsbD 0 then 0 else 1)

/-- R204, R208, R211, R212, as exact rationals: balanceScore is 1 − 2·|1/2 − lsbBalance|, flipScore is
min(1, flipRate/(1/2)), the score is (3/5)·balanceScore + (2/5)·flipScore, the clamp to [0, 1] does not change it. -/
def Obligations.ScoreIsExactRational : Prop :=
  ∀ ones total flips comps : Nat, ones ≤ total →
    let q (x : Nat × Nat) : ℚ := (x.1 : ℚ) / (x.2 : ℚ)
    let bs := balanceScore ones total
    let fs := flipScore flips comps
    q bs = 1 - 2 * |1 / 2 - q (lsbBalance ones total)| ∧
    q fs = min 1 (q (flipRate flips comps) / (1 / 2)) ∧
    q (scorePair bs fs) = 3 / 5 * q bs + 2 / 5 * q fs ∧
    max 0 (min 1 (q (scorePair bs fs))) = q (scorePair bs fs)

/-- R213, R214, R34: after every DETECT SCORE_NUM is 3·bsN·fsD + 2·fsN·bsD and SCORE_DEN is 5·bsD·fsD as numbers, for the
image read, with SCORE_NUM ≤ SCORE_DEN and 5 ≤ SCORE_DEN < 2^71: nothing wraps. -/
def Obligations.ScoreRegistersExact : Prop :=
  ∀ s t : State, exec .detect s = .next t → ∃ image,
    readCells s.pixIn 0 (s.width.toNat * s.height.toNat) = some image ∧
    let total := 3 * s.width.toNat * s.height.toNat
    let comps := if 2 ≤ s.width.toNat then 3 * s.height.toNat * (s.width.toNat - 1) else 0
    let ones := imageOnes image
    let flips := imageFlips s.width.toNat s.height.toNat image
    let bs : Nat × Nat := if total = 0 then (1, 1) else (total - absDiff total (2 * ones), total)
    let fs : Nat × Nat := if comps = 0 then (0, 1) else (min comps (2 * flips), comps)
    t.results.scoreNum.toNat = 3 * bs.1 * fs.2 + 2 * fs.1 * bs.2 ∧
    t.results.scoreNum.toNat ≤ t.results.scoreDen.toNat ∧ 5 ≤ t.results.scoreDen.toNat ∧
    t.results.scoreDen.toNat < 2 ^ 71 ∧
    t.results.scoreDen.toNat = 5 * (if total = 0 then 1 else total) * (if comps = 0 then 1 else comps)

/-- R209: round4(n, d) is a nearest integer to 10000·n/d, the even one on an exact tie, and is at most 10000 for a ratio
of at most 1. -/
def Obligations.RoundFourNearestEven : Prop :=
  ∀ n d : Nat, 0 < d →
    2 * absDiff (10000 * n) (round4 n d * d) ≤ d ∧
    (2 * absDiff (10000 * n) (round4 n d * d) = d → round4 n d % 2 = 0) ∧
    (n ≤ d → round4 n d ≤ 10000)

/-- R218 row 1, R203: a zero-area image needs no cell and scores 3/5: the balance guard gives 5000 and the flip guard
0. -/
def Obligations.ZeroAreaScore : Prop :=
  ∀ s : State, s.phase ≠ .busy → s.width = 0 ∨ s.height = 0 →
    ∃ t, exec .detect s = .next t ∧ t.err = .none ∧ t.results.scoreNum = 3 ∧ t.results.scoreDen = 5 ∧
      t.results.balE4 = 5000 ∧ t.results.flipE4 = 0 ∧ t.results.ones = 0 ∧ t.results.zeros = 0

/-- R220: two images with equal dimensions and equal LSBs get equal results. -/
def Obligations.DetectReadsOnlyLsbs : Prop :=
  ∀ (s t : State) (m : Memory Pixel) (a b : List Pixel), exec .detect s = .next t →
    readCells s.pixIn 0 (s.width.toNat * s.height.toNat) = some a →
    readCells m 0 (s.width.toNat * s.height.toNat) = some b → sameLsbs a b →
    exec .detect { s with pixIn := m } = .next { t with pixIn := m }

/-! ## Rules of the whole machine -/

/-- R249, R263 (with MAX_PIXELS, R73): a command whose input cells hold values always ends, in DONE. -/
def Obligations.SuppliedCommandsEnd : Prop :=
  ∀ (i : Instr) (s : State), s.mayRun → s.memWf → s.suppliedFor i →
    ∃ t, exec i s = .next t ∧ t.phase = .done ∧ t.cmd = encodeWord i

/-- R44, R73, U4, U6, U7 (derived), in both directions. Outside BUSY a command never faults. It is refused only for
MAX_PIXELS or for an input cell without value that it reads, in the space named. ENCODE, DECODE and DETECT ARE refused
when w · h exceeds MAX_PIXELS; within it every command IS refused when a cell it reads holds no value. The names of the
refusals and that MAX_PIXELS is tested first, before ENCODE's capacity check too, are the model's (log entries 5 and 6). -/
def Obligations.CommandsStopExactlyForMissingCells : Prop :=
  ∀ (i : Instr) (s : State), s.phase ≠ .busy → s.memWf →
    (∀ f, exec i s ≠ .fault f) ∧
    (∀ r, exec i s = .refused r →
      (r = .imageBeyondMaxPixels ∧ i ≠ .capacity ∧ s.cfg.maxPixels < pixelCount s) ∨
      ((∃ sp, r = .cellHoldsNoValue sp ∧ s.lacksCell sp) ∧ ¬ s.suppliedFor i)) ∧
    (i ≠ .capacity → s.cfg.maxPixels < pixelCount s → exec i s = .refused .imageBeyondMaxPixels) ∧
    (pixelCount s ≤ s.cfg.maxPixels → ¬ s.suppliedFor i →
      ∃ sp, exec i s = .refused (.cellHoldsNoValue sp) ∧ s.lacksCell sp)

/-- R242: which command can end with which code, and an illegal word ends with IllegalCommand. -/
def Obligations.CommandErrorCodes : Prop :=
  (∀ s t : State, exec .capacity s = .next t → t.err = .none) ∧
  (∀ s t : State, exec .encode s = .next t → t.err = .none ∨ t.err = .capacityExceeded) ∧
  (∀ s t : State, exec .decode s = .next t → t.err = .none ∨ t.err = .headerTooShort ∨ t.err = .noStegoHeader ∨
    t.err = .corruptHeader ∨ t.err = .insufficientData) ∧
  (∀ s t : State, exec .detect s = .next t → t.err = .none) ∧
  (∀ (s t : State) (c : BitVec 32) (rest : List HostAction), s.host.queue = .writeReg 0 c :: rest →
    ¬(1 ≤ c.toNat ∧ c.toNat ≤ 4) → step s = .next t → t.err = .illegalCommand)

/-- R240: errors are precise: when the step that writes a word to CMD ends with an error, the state is the one before
it except CMD, STATUS and the result registers, which are cleared but for CAP_BITS and NEEDED_BITS of CapacityExceeded,
its `info`. (The host's queue loses the action taken.) -/
def Obligations.ErrorsArePrecise : Prop :=
  ∀ (s t : State) (c : BitVec 32) (rest : List HostAction), s.host.queue = .writeReg 0 c :: rest →
    step s = .next t → t.err ≠ .none →
    t = { s with
      cmd := c, phase := .done, err := t.err, host := ⟨rest, s.host.response⟩
      results := { Results.cleared with capBits := t.results.capBits, neededBits := t.results.neededBits } } ∧
    (t.err ≠ .capacityExceeded → t.results = Results.cleared) ∧
    (t.err = .capacityExceeded →
      t.results.capBits.toNat = 3 * s.width.toNat * s.height.toNat ∧
      t.results.neededBits.toNat = 8 * (11 + min s.nameLen.toNat 65535 + s.payLen.toNat))

/-- R46: the results of a command (STATUS.ERR, the result registers and the cells it writes) are a function of the
operand registers and the input cells that it reads (in one instance, so with one MAX_PIXELS): in two states that agree
on these, whatever else they hold, a command answers alike. -/
def Obligations.CommandsAreStateless : Prop :=
  ∀ (i : Instr) (s s' t : State), s.phase ≠ .busy → s'.phase ≠ .busy → s.memWf → s'.memWf → s'.cfg = s.cfg →
    s'.width = s.width → s'.height = s.height →
    (i ≠ .capacity → ∀ a, a < pixelCount s → readCell s'.pixIn a = readCell s.pixIn a) →
    (i = .encode → s'.payLen = s.payLen ∧ s'.nameLen = s.nameLen ∧
      (∀ a, a < s.payLen.toNat → readCell s'.payIn a = readCell s.payIn a) ∧
      (∀ a, a < min s.nameLen.toNat 65535 → readCell s'.nameIn a = readCell s.nameIn a)) →
    exec i s = .next t →
    ∃ t', exec i s' = .next t' ∧ t'.phase = t.phase ∧ t'.err = t.err ∧ t'.results = t.results ∧
      (i = .encode → t.err = .none → ∀ a, a < pixelCount s → readCell t'.pixOut a = readCell t.pixOut a) ∧
      (i = .decode → t.err = .none → ∀ a,
        (a < t.results.outNameLen.toNat → readCell t'.nameOut a = readCell t.nameOut a) ∧
        (a < t.results.outFnameLen.toNat → readCell t'.fnameOut a = readCell t.fnameOut a) ∧
        (a < t.results.outPayLen.toNat → readCell t'.payOut a = readCell t.payOut a))

/-- R70, D28, R21: the frame of every command. Operand registers, input spaces, parameters and the host's side stay.
Only ENCODE changes PIX_OUT, and no cell at w·h or beyond; only DECODE changes NAME_OUT, FNAME_OUT and PAY_OUT, and no
cell at or beyond the lengths it reports. Result registers the command does not own are at their cleared values. -/
def Obligations.CommandFrames : Prop :=
  ∀ (i : Instr) (s t : State), exec i s = .next t →
    (t.width = s.width ∧ t.height = s.height ∧ t.payLen = s.payLen ∧ t.nameLen = s.nameLen ∧ t.pixIn = s.pixIn ∧
      t.payIn = s.payIn ∧ t.nameIn = s.nameIn ∧ t.cfg = s.cfg ∧ t.host = s.host ∧ t.epoch = s.epoch) ∧
    (i ≠ .encode → t.pixOut = s.pixOut) ∧
    (i = .encode → ∀ a, s.width.toNat * s.height.toNat ≤ a → readCell t.pixOut a = readCell s.pixOut a) ∧
    (i ≠ .decode → t.nameOut = s.nameOut ∧ t.fnameOut = s.fnameOut ∧ t.payOut = s.payOut) ∧
    (i = .decode → ∀ a,
      (t.results.outNameLen.toNat ≤ a → readCell t.nameOut a = readCell s.nameOut a) ∧
      (t.results.outFnameLen.toNat ≤ a → readCell t.fnameOut a = readCell s.fnameOut a) ∧
      (t.results.outPayLen.toNat ≤ a → readCell t.payOut a = readCell s.payOut a)) ∧
    (i ≠ .encode ∧ i ≠ .detect → t.results.outW = 0 ∧ t.results.outH = 0) ∧
    (i ≠ .capacity ∧ i ≠ .encode → t.results.capBits = 0) ∧
    (i ≠ .capacity → t.results.capBytes = 0) ∧
    (i ≠ .encode → t.results.neededBits = 0 ∧ t.results.usedBits = 0 ∧ t.results.utilNum = 0 ∧ t.results.utilDen = 1) ∧
    (i ≠ .decode → t.results.hdrBits = 0 ∧ t.results.outNameLen = 0 ∧ t.results.outPayLen = 0 ∧
      t.results.outFnameLen = 0) ∧
    (i ≠ .detect → t.results.ones = 0 ∧ t.results.zeros = 0 ∧ t.results.balE4 = 0 ∧ t.results.flipE4 = 0 ∧
      t.results.scoreNum = 0 ∧ t.results.scoreDen = 1 ∧ t.results.note = 0)

/-- R260, R247: reset is the only way to reach IDLE: a step that ends in IDLE started in IDLE or took a reset. -/
def Obligations.OnlyResetReachesIdle : Prop :=
  ∀ s t : State, step s = .next t → t.phase = .idle →
    s.phase = .idle ∨ ∃ rest, s.host.queue = .reset :: rest

/-- The invariant holds after reset (R47). -/
def Obligations.InvariantAtReset : Prop := State.reset.Inv

/-- Every step keeps the invariant: canonical memories, STATUS a legal pair that fits CMD, fractions with non-zero
denominators, ranges of the details record, code points that are scalar values (R23, R30, R31, R33, R34, R43, R242). -/
def Obligations.StepKeepsInvariant : Prop :=
  ∀ s t : State, s.Inv → step s = .next t → t.Inv

/-- R7, R73 (derived): no step changes MAX_PIXELS, and in every state a step faults only when the host's next action
names a range of pixel cells that reaches beyond it. The model's choice, no rule of the spec: that such an access is a
fault (log entry 9, DEDUCED), and that no access to the five byte and code point spaces ever faults, because they have a
cell at every index (log entry 10, DESIGN CHOICE, unsafe for an instance with smaller spaces). -/
def Obligations.FaultsOnlyBeyondMaxPixels : Prop :=
  (∀ s t : State, step s = .next t → t.cfg = s.cfg) ∧
  (∀ (s : State) (f : Fault), step s = .fault f → ∃ act rest, s.host.queue = act :: rest ∧
    ((∃ a vs, act = .writePixIn a vs ∧ s.cfg.maxPixels < a + vs.length) ∨
      ∃ sp a n, act = .readSpace sp a n ∧ (sp = .pixIn ∨ sp = .pixOut) ∧ s.cfg.maxPixels < a + n))
end

