-- ==== Sys2Proof/Laws/State.lean ====
section
/-! SUPPORT. One lemma per field and update of the state, each true by rfl, so that no later proof unfolds a record
update. -/

namespace Sys2Proof.Machine

@[simp] theorem startCommand_cmd (c : BitVec 32) (s : State) : (startCommand c s).cmd = c := rfl
@[simp] theorem startCommand_phase (c : BitVec 32) (s : State) : (startCommand c s).phase = .busy := rfl
@[simp] theorem startCommand_err (c : BitVec 32) (s : State) : (startCommand c s).err = .none := rfl
@[simp] theorem startCommand_width (c : BitVec 32) (s : State) : (startCommand c s).width = s.width := rfl
@[simp] theorem startCommand_height (c : BitVec 32) (s : State) : (startCommand c s).height = s.height := rfl
@[simp] theorem startCommand_payLen (c : BitVec 32) (s : State) : (startCommand c s).payLen = s.payLen := rfl
@[simp] theorem startCommand_nameLen (c : BitVec 32) (s : State) : (startCommand c s).nameLen = s.nameLen := rfl
@[simp] theorem startCommand_results (c : BitVec 32) (s : State) :
    (startCommand c s).results = Results.cleared := rfl
@[simp] theorem startCommand_pixIn (c : BitVec 32) (s : State) : (startCommand c s).pixIn = s.pixIn := rfl
@[simp] theorem startCommand_pixOut (c : BitVec 32) (s : State) : (startCommand c s).pixOut = s.pixOut := rfl
@[simp] theorem startCommand_payIn (c : BitVec 32) (s : State) : (startCommand c s).payIn = s.payIn := rfl
@[simp] theorem startCommand_nameIn (c : BitVec 32) (s : State) : (startCommand c s).nameIn = s.nameIn := rfl
@[simp] theorem startCommand_payOut (c : BitVec 32) (s : State) : (startCommand c s).payOut = s.payOut := rfl
@[simp] theorem startCommand_nameOut (c : BitVec 32) (s : State) : (startCommand c s).nameOut = s.nameOut := rfl
@[simp] theorem startCommand_fnameOut (c : BitVec 32) (s : State) : (startCommand c s).fnameOut = s.fnameOut := rfl
@[simp] theorem startCommand_cfg (c : BitVec 32) (s : State) : (startCommand c s).cfg = s.cfg := rfl
@[simp] theorem startCommand_host (c : BitVec 32) (s : State) : (startCommand c s).host = s.host := rfl
@[simp] theorem startCommand_epoch (c : BitVec 32) (s : State) : (startCommand c s).epoch = s.epoch := rfl

@[simp] theorem endCommand_cmd (e : ErrCode) (s : State) : (endCommand e s).cmd = s.cmd := rfl
@[simp] theorem endCommand_phase (e : ErrCode) (s : State) : (endCommand e s).phase = .done := rfl
@[simp] theorem endCommand_err (e : ErrCode) (s : State) : (endCommand e s).err = e := rfl
@[simp] theorem endCommand_width (e : ErrCode) (s : State) : (endCommand e s).width = s.width := rfl
@[simp] theorem endCommand_height (e : ErrCode) (s : State) : (endCommand e s).height = s.height := rfl
@[simp] theorem endCommand_payLen (e : ErrCode) (s : State) : (endCommand e s).payLen = s.payLen := rfl
@[simp] theorem endCommand_nameLen (e : ErrCode) (s : State) : (endCommand e s).nameLen = s.nameLen := rfl
@[simp] theorem endCommand_results (e : ErrCode) (s : State) : (endCommand e s).results = s.results := rfl
@[simp] theorem endCommand_pixIn (e : ErrCode) (s : State) : (endCommand e s).pixIn = s.pixIn := rfl
@[simp] theorem endCommand_pixOut (e : ErrCode) (s : State) : (endCommand e s).pixOut = s.pixOut := rfl
@[simp] theorem endCommand_payIn (e : ErrCode) (s : State) : (endCommand e s).payIn = s.payIn := rfl
@[simp] theorem endCommand_nameIn (e : ErrCode) (s : State) : (endCommand e s).nameIn = s.nameIn := rfl
@[simp] theorem endCommand_payOut (e : ErrCode) (s : State) : (endCommand e s).payOut = s.payOut := rfl
@[simp] theorem endCommand_nameOut (e : ErrCode) (s : State) : (endCommand e s).nameOut = s.nameOut := rfl
@[simp] theorem endCommand_fnameOut (e : ErrCode) (s : State) : (endCommand e s).fnameOut = s.fnameOut := rfl
@[simp] theorem endCommand_cfg (e : ErrCode) (s : State) : (endCommand e s).cfg = s.cfg := rfl
@[simp] theorem endCommand_host (e : ErrCode) (s : State) : (endCommand e s).host = s.host := rfl
@[simp] theorem endCommand_epoch (e : ErrCode) (s : State) : (endCommand e s).epoch = s.epoch := rfl

@[simp] theorem respond_cmd (r : Response) (s : State) : (respond r s).cmd = s.cmd := rfl
@[simp] theorem respond_phase (r : Response) (s : State) : (respond r s).phase = s.phase := rfl
@[simp] theorem respond_err (r : Response) (s : State) : (respond r s).err = s.err := rfl
@[simp] theorem respond_width (r : Response) (s : State) : (respond r s).width = s.width := rfl
@[simp] theorem respond_height (r : Response) (s : State) : (respond r s).height = s.height := rfl
@[simp] theorem respond_payLen (r : Response) (s : State) : (respond r s).payLen = s.payLen := rfl
@[simp] theorem respond_nameLen (r : Response) (s : State) : (respond r s).nameLen = s.nameLen := rfl
@[simp] theorem respond_results (r : Response) (s : State) : (respond r s).results = s.results := rfl
@[simp] theorem respond_pixIn (r : Response) (s : State) : (respond r s).pixIn = s.pixIn := rfl
@[simp] theorem respond_pixOut (r : Response) (s : State) : (respond r s).pixOut = s.pixOut := rfl
@[simp] theorem respond_payIn (r : Response) (s : State) : (respond r s).payIn = s.payIn := rfl
@[simp] theorem respond_nameIn (r : Response) (s : State) : (respond r s).nameIn = s.nameIn := rfl
@[simp] theorem respond_payOut (r : Response) (s : State) : (respond r s).payOut = s.payOut := rfl
@[simp] theorem respond_nameOut (r : Response) (s : State) : (respond r s).nameOut = s.nameOut := rfl
@[simp] theorem respond_fnameOut (r : Response) (s : State) : (respond r s).fnameOut = s.fnameOut := rfl
@[simp] theorem respond_cfg (r : Response) (s : State) : (respond r s).cfg = s.cfg := rfl
@[simp] theorem respond_host (r : Response) (s : State) : (respond r s).host = ⟨s.host.queue, some r⟩ := rfl
@[simp] theorem respond_epoch (r : Response) (s : State) : (respond r s).epoch = s.epoch := rfl

@[simp] theorem dropAction_cmd (s : State) : (dropAction s).cmd = s.cmd := rfl
@[simp] theorem dropAction_phase (s : State) : (dropAction s).phase = s.phase := rfl
@[simp] theorem dropAction_err (s : State) : (dropAction s).err = s.err := rfl
@[simp] theorem dropAction_width (s : State) : (dropAction s).width = s.width := rfl
@[simp] theorem dropAction_height (s : State) : (dropAction s).height = s.height := rfl
@[simp] theorem dropAction_payLen (s : State) : (dropAction s).payLen = s.payLen := rfl
@[simp] theorem dropAction_nameLen (s : State) : (dropAction s).nameLen = s.nameLen := rfl
@[simp] theorem dropAction_results (s : State) : (dropAction s).results = s.results := rfl
@[simp] theorem dropAction_pixIn (s : State) : (dropAction s).pixIn = s.pixIn := rfl
@[simp] theorem dropAction_pixOut (s : State) : (dropAction s).pixOut = s.pixOut := rfl
@[simp] theorem dropAction_payIn (s : State) : (dropAction s).payIn = s.payIn := rfl
@[simp] theorem dropAction_nameIn (s : State) : (dropAction s).nameIn = s.nameIn := rfl
@[simp] theorem dropAction_payOut (s : State) : (dropAction s).payOut = s.payOut := rfl
@[simp] theorem dropAction_nameOut (s : State) : (dropAction s).nameOut = s.nameOut := rfl
@[simp] theorem dropAction_fnameOut (s : State) : (dropAction s).fnameOut = s.fnameOut := rfl
@[simp] theorem dropAction_cfg (s : State) : (dropAction s).cfg = s.cfg := rfl
@[simp] theorem dropAction_host (s : State) : (dropAction s).host = ⟨s.host.queue.tail, s.host.response⟩ := rfl
@[simp] theorem dropAction_epoch (s : State) : (dropAction s).epoch = s.epoch := rfl

@[simp] theorem putCommand_cmd (c : BitVec 32) (s : State) : (putCommand c s).cmd = s.cmd := rfl
@[simp] theorem putCommand_phase (c : BitVec 32) (s : State) : (putCommand c s).phase = s.phase := rfl
@[simp] theorem putCommand_err (c : BitVec 32) (s : State) : (putCommand c s).err = s.err := rfl
@[simp] theorem putCommand_width (c : BitVec 32) (s : State) : (putCommand c s).width = s.width := rfl
@[simp] theorem putCommand_height (c : BitVec 32) (s : State) : (putCommand c s).height = s.height := rfl
@[simp] theorem putCommand_payLen (c : BitVec 32) (s : State) : (putCommand c s).payLen = s.payLen := rfl
@[simp] theorem putCommand_nameLen (c : BitVec 32) (s : State) : (putCommand c s).nameLen = s.nameLen := rfl
@[simp] theorem putCommand_results (c : BitVec 32) (s : State) : (putCommand c s).results = s.results := rfl
@[simp] theorem putCommand_pixIn (c : BitVec 32) (s : State) : (putCommand c s).pixIn = s.pixIn := rfl
@[simp] theorem putCommand_pixOut (c : BitVec 32) (s : State) : (putCommand c s).pixOut = s.pixOut := rfl
@[simp] theorem putCommand_payIn (c : BitVec 32) (s : State) : (putCommand c s).payIn = s.payIn := rfl
@[simp] theorem putCommand_nameIn (c : BitVec 32) (s : State) : (putCommand c s).nameIn = s.nameIn := rfl
@[simp] theorem putCommand_payOut (c : BitVec 32) (s : State) : (putCommand c s).payOut = s.payOut := rfl
@[simp] theorem putCommand_nameOut (c : BitVec 32) (s : State) : (putCommand c s).nameOut = s.nameOut := rfl
@[simp] theorem putCommand_fnameOut (c : BitVec 32) (s : State) : (putCommand c s).fnameOut = s.fnameOut := rfl
@[simp] theorem putCommand_cfg (c : BitVec 32) (s : State) : (putCommand c s).cfg = s.cfg := rfl
@[simp] theorem putCommand_host (c : BitVec 32) (s : State) :
    (putCommand c s).host = ⟨.writeReg 0 c :: s.host.queue, s.host.response⟩ := rfl
@[simp] theorem putCommand_epoch (c : BitVec 32) (s : State) : (putCommand c s).epoch = s.epoch := rfl

@[simp] theorem resetBlock_cmd (s : State) : (resetBlock s).cmd = 0 := rfl
@[simp] theorem resetBlock_phase (s : State) : (resetBlock s).phase = .idle := rfl
@[simp] theorem resetBlock_err (s : State) : (resetBlock s).err = .none := rfl
@[simp] theorem resetBlock_width (s : State) : (resetBlock s).width = 0 := rfl
@[simp] theorem resetBlock_height (s : State) : (resetBlock s).height = 0 := rfl
@[simp] theorem resetBlock_payLen (s : State) : (resetBlock s).payLen = 0 := rfl
@[simp] theorem resetBlock_nameLen (s : State) : (resetBlock s).nameLen = 0 := rfl
@[simp] theorem resetBlock_results (s : State) : (resetBlock s).results = Results.cleared := rfl
@[simp] theorem resetBlock_pixIn (s : State) : (resetBlock s).pixIn = [] := rfl
@[simp] theorem resetBlock_pixOut (s : State) : (resetBlock s).pixOut = [] := rfl
@[simp] theorem resetBlock_payIn (s : State) : (resetBlock s).payIn = [] := rfl
@[simp] theorem resetBlock_nameIn (s : State) : (resetBlock s).nameIn = [] := rfl
@[simp] theorem resetBlock_payOut (s : State) : (resetBlock s).payOut = [] := rfl
@[simp] theorem resetBlock_nameOut (s : State) : (resetBlock s).nameOut = [] := rfl
@[simp] theorem resetBlock_fnameOut (s : State) : (resetBlock s).fnameOut = [] := rfl
@[simp] theorem resetBlock_cfg (s : State) : (resetBlock s).cfg = s.cfg := rfl
@[simp] theorem resetBlock_host (s : State) : (resetBlock s).host = s.host := rfl
@[simp] theorem resetBlock_epoch (s : State) : (resetBlock s).epoch = s.epoch + 1 := rfl

@[simp] theorem encodeReport_cmd (s : State) : (encodeReport s).cmd = s.cmd := rfl
@[simp] theorem encodeReport_phase (s : State) : (encodeReport s).phase = s.phase := rfl
@[simp] theorem encodeReport_err (s : State) : (encodeReport s).err = s.err := rfl
@[simp] theorem encodeReport_width (s : State) : (encodeReport s).width = s.width := rfl
@[simp] theorem encodeReport_height (s : State) : (encodeReport s).height = s.height := rfl
@[simp] theorem encodeReport_payLen (s : State) : (encodeReport s).payLen = s.payLen := rfl
@[simp] theorem encodeReport_nameLen (s : State) : (encodeReport s).nameLen = s.nameLen := rfl
@[simp] theorem encodeReport_results (s : State) :
    (encodeReport s).results = { s.results with
      capBits := BitVec.ofNat 64 (capacityBits (opWidth s) (opHeight s))
      neededBits := BitVec.ofNat 64 (frameBits s) } := rfl
@[simp] theorem encodeReport_pixIn (s : State) : (encodeReport s).pixIn = s.pixIn := rfl
@[simp] theorem encodeReport_pixOut (s : State) : (encodeReport s).pixOut = s.pixOut := rfl
@[simp] theorem encodeReport_payIn (s : State) : (encodeReport s).payIn = s.payIn := rfl
@[simp] theorem encodeReport_nameIn (s : State) : (encodeReport s).nameIn = s.nameIn := rfl
@[simp] theorem encodeReport_payOut (s : State) : (encodeReport s).payOut = s.payOut := rfl
@[simp] theorem encodeReport_nameOut (s : State) : (encodeReport s).nameOut = s.nameOut := rfl
@[simp] theorem encodeReport_fnameOut (s : State) : (encodeReport s).fnameOut = s.fnameOut := rfl
@[simp] theorem encodeReport_cfg (s : State) : (encodeReport s).cfg = s.cfg := rfl
@[simp] theorem encodeReport_host (s : State) : (encodeReport s).host = s.host := rfl
@[simp] theorem encodeReport_epoch (s : State) : (encodeReport s).epoch = s.epoch := rfl

@[simp] theorem encodeWrites_cmd (image : List Pixel) (name payload : List Byte) (s : State) :
    (encodeWrites image name payload s).cmd = s.cmd := rfl
@[simp] theorem encodeWrites_phase (image : List Pixel) (name payload : List Byte) (s : State) :
    (encodeWrites image name payload s).phase = s.phase := rfl
@[simp] theorem encodeWrites_err (image : List Pixel) (name payload : List Byte) (s : State) :
    (encodeWrites image name payload s).err = s.err := rfl
@[simp] theorem encodeWrites_width (image : List Pixel) (name payload : List Byte) (s : State) :
    (encodeWrites image name payload s).width = s.width := rfl
@[simp] theorem encodeWrites_height (image : List Pixel) (name payload : List Byte) (s : State) :
    (encodeWrites image name payload s).height = s.height := rfl
@[simp] theorem encodeWrites_payLen (image : List Pixel) (name payload : List Byte) (s : State) :
    (encodeWrites image name payload s).payLen = s.payLen := rfl
@[simp] theorem encodeWrites_nameLen (image : List Pixel) (name payload : List Byte) (s : State) :
    (encodeWrites image name payload s).nameLen = s.nameLen := rfl
@[simp] theorem encodeWrites_pixIn (image : List Pixel) (name payload : List Byte) (s : State) :
    (encodeWrites image name payload s).pixIn = s.pixIn := rfl
@[simp] theorem encodeWrites_pixOut (image : List Pixel) (name payload : List Byte) (s : State) :
    (encodeWrites image name payload s).pixOut = writeCells 0 (embed image (bytesToBits (packHeader name (opNameLenIn s) (opPayLen s) ++ payload))) s.pixOut := rfl
@[simp] theorem encodeWrites_payIn (image : List Pixel) (name payload : List Byte) (s : State) :
    (encodeWrites image name payload s).payIn = s.payIn := rfl
@[simp] theorem encodeWrites_nameIn (image : List Pixel) (name payload : List Byte) (s : State) :
    (encodeWrites image name payload s).nameIn = s.nameIn := rfl
@[simp] theorem encodeWrites_payOut (image : List Pixel) (name payload : List Byte) (s : State) :
    (encodeWrites image name payload s).payOut = s.payOut := rfl
@[simp] theorem encodeWrites_nameOut (image : List Pixel) (name payload : List Byte) (s : State) :
    (encodeWrites image name payload s).nameOut = s.nameOut := rfl
@[simp] theorem encodeWrites_fnameOut (image : List Pixel) (name payload : List Byte) (s : State) :
    (encodeWrites image name payload s).fnameOut = s.fnameOut := rfl
@[simp] theorem encodeWrites_cfg (image : List Pixel) (name payload : List Byte) (s : State) :
    (encodeWrites image name payload s).cfg = s.cfg := rfl
@[simp] theorem encodeWrites_host (image : List Pixel) (name payload : List Byte) (s : State) :
    (encodeWrites image name payload s).host = s.host := rfl
@[simp] theorem encodeWrites_epoch (image : List Pixel) (name payload : List Byte) (s : State) :
    (encodeWrites image name payload s).epoch = s.epoch := rfl

@[simp] theorem decodeWrites_cmd (hdr : Header) (payload : List Byte) (s : State) :
    (decodeWrites hdr payload s).cmd = s.cmd := rfl
@[simp] theorem decodeWrites_phase (hdr : Header) (payload : List Byte) (s : State) :
    (decodeWrites hdr payload s).phase = s.phase := rfl
@[simp] theorem decodeWrites_err (hdr : Header) (payload : List Byte) (s : State) :
    (decodeWrites hdr payload s).err = s.err := rfl
@[simp] theorem decodeWrites_width (hdr : Header) (payload : List Byte) (s : State) :
    (decodeWrites hdr payload s).width = s.width := rfl
@[simp] theorem decodeWrites_height (hdr : Header) (payload : List Byte) (s : State) :
    (decodeWrites hdr payload s).height = s.height := rfl
@[simp] theorem decodeWrites_payLen (hdr : Header) (payload : List Byte) (s : State) :
    (decodeWrites hdr payload s).payLen = s.payLen := rfl
@[simp] theorem decodeWrites_nameLen (hdr : Header) (payload : List Byte) (s : State) :
    (decodeWrites hdr payload s).nameLen = s.nameLen := rfl
@[simp] theorem decodeWrites_pixIn (hdr : Header) (payload : List Byte) (s : State) :
    (decodeWrites hdr payload s).pixIn = s.pixIn := rfl
@[simp] theorem decodeWrites_pixOut (hdr : Header) (payload : List Byte) (s : State) :
    (decodeWrites hdr payload s).pixOut = s.pixOut := rfl
@[simp] theorem decodeWrites_payIn (hdr : Header) (payload : List Byte) (s : State) :
    (decodeWrites hdr payload s).payIn = s.payIn := rfl
@[simp] theorem decodeWrites_nameIn (hdr : Header) (payload : List Byte) (s : State) :
    (decodeWrites hdr payload s).nameIn = s.nameIn := rfl
@[simp] theorem decodeWrites_payOut (hdr : Header) (payload : List Byte) (s : State) :
    (decodeWrites hdr payload s).payOut = writeCells 0 payload s.payOut := rfl
@[simp] theorem decodeWrites_nameOut (hdr : Header) (payload : List Byte) (s : State) :
    (decodeWrites hdr payload s).nameOut = writeCells 0 hdr.nameBytes s.nameOut := rfl
@[simp] theorem decodeWrites_fnameOut (hdr : Header) (payload : List Byte) (s : State) :
    (decodeWrites hdr payload s).fnameOut = writeCells 0 hdr.filename s.fnameOut := rfl
@[simp] theorem decodeWrites_cfg (hdr : Header) (payload : List Byte) (s : State) :
    (decodeWrites hdr payload s).cfg = s.cfg := rfl
@[simp] theorem decodeWrites_host (hdr : Header) (payload : List Byte) (s : State) :
    (decodeWrites hdr payload s).host = s.host := rfl
@[simp] theorem decodeWrites_epoch (hdr : Header) (payload : List Byte) (s : State) :
    (decodeWrites hdr payload s).epoch = s.epoch := rfl

@[simp] theorem detectWrites_cmd (image : List Pixel) (s : State) : (detectWrites image s).cmd = s.cmd := rfl
@[simp] theorem detectWrites_phase (image : List Pixel) (s : State) : (detectWrites image s).phase = s.phase := rfl
@[simp] theorem detectWrites_err (image : List Pixel) (s : State) : (detectWrites image s).err = s.err := rfl
@[simp] theorem detectWrites_width (image : List Pixel) (s : State) : (detectWrites image s).width = s.width := rfl
@[simp] theorem detectWrites_height (image : List Pixel) (s : State) :
    (detectWrites image s).height = s.height := rfl
@[simp] theorem detectWrites_payLen (image : List Pixel) (s : State) :
    (detectWrites image s).payLen = s.payLen := rfl
@[simp] theorem detectWrites_nameLen (image : List Pixel) (s : State) :
    (detectWrites image s).nameLen = s.nameLen := rfl
@[simp] theorem detectWrites_pixIn (image : List Pixel) (s : State) : (detectWrites image s).pixIn = s.pixIn := rfl
@[simp] theorem detectWrites_pixOut (image : List Pixel) (s : State) :
    (detectWrites image s).pixOut = s.pixOut := rfl
@[simp] theorem detectWrites_payIn (image : List Pixel) (s : State) : (detectWrites image s).payIn = s.payIn := rfl
@[simp] theorem detectWrites_nameIn (image : List Pixel) (s : State) :
    (detectWrites image s).nameIn = s.nameIn := rfl
@[simp] theorem detectWrites_payOut (image : List Pixel) (s : State) :
    (detectWrites image s).payOut = s.payOut := rfl
@[simp] theorem detectWrites_nameOut (image : List Pixel) (s : State) :
    (detectWrites image s).nameOut = s.nameOut := rfl
@[simp] theorem detectWrites_fnameOut (image : List Pixel) (s : State) :
    (detectWrites image s).fnameOut = s.fnameOut := rfl
@[simp] theorem detectWrites_cfg (image : List Pixel) (s : State) : (detectWrites image s).cfg = s.cfg := rfl
@[simp] theorem detectWrites_host (image : List Pixel) (s : State) : (detectWrites image s).host = s.host := rfl
@[simp] theorem detectWrites_epoch (image : List Pixel) (s : State) : (detectWrites image s).epoch = s.epoch := rfl

@[simp] theorem startCommand_opWidth (c : BitVec 32) (s : State) : opWidth (startCommand c s) = opWidth s := rfl
@[simp] theorem startCommand_opHeight (c : BitVec 32) (s : State) : opHeight (startCommand c s) = opHeight s := rfl
@[simp] theorem startCommand_opPayLen (c : BitVec 32) (s : State) : opPayLen (startCommand c s) = opPayLen s := rfl
@[simp] theorem startCommand_opNameLenIn (c : BitVec 32) (s : State) : opNameLenIn (startCommand c s) = opNameLenIn s := rfl
@[simp] theorem startCommand_pixelCount (c : BitVec 32) (s : State) : pixelCount (startCommand c s) = pixelCount s := rfl
@[simp] theorem endCommand_opWidth (e : ErrCode) (s : State) : opWidth (endCommand e s) = opWidth s := rfl
@[simp] theorem endCommand_opHeight (e : ErrCode) (s : State) : opHeight (endCommand e s) = opHeight s := rfl
@[simp] theorem endCommand_opPayLen (e : ErrCode) (s : State) : opPayLen (endCommand e s) = opPayLen s := rfl
@[simp] theorem endCommand_opNameLenIn (e : ErrCode) (s : State) : opNameLenIn (endCommand e s) = opNameLenIn s := rfl
@[simp] theorem endCommand_pixelCount (e : ErrCode) (s : State) : pixelCount (endCommand e s) = pixelCount s := rfl
@[simp] theorem respond_opWidth (r : Response) (s : State) : opWidth (respond r s) = opWidth s := rfl
@[simp] theorem respond_opHeight (r : Response) (s : State) : opHeight (respond r s) = opHeight s := rfl
@[simp] theorem respond_opPayLen (r : Response) (s : State) : opPayLen (respond r s) = opPayLen s := rfl
@[simp] theorem respond_opNameLenIn (r : Response) (s : State) : opNameLenIn (respond r s) = opNameLenIn s := rfl
@[simp] theorem respond_pixelCount (r : Response) (s : State) : pixelCount (respond r s) = pixelCount s := rfl
@[simp] theorem dropAction_opWidth (s : State) : opWidth (dropAction s) = opWidth s := rfl
@[simp] theorem dropAction_opHeight (s : State) : opHeight (dropAction s) = opHeight s := rfl
@[simp] theorem dropAction_opPayLen (s : State) : opPayLen (dropAction s) = opPayLen s := rfl
@[simp] theorem dropAction_opNameLenIn (s : State) : opNameLenIn (dropAction s) = opNameLenIn s := rfl
@[simp] theorem dropAction_pixelCount (s : State) : pixelCount (dropAction s) = pixelCount s := rfl
@[simp] theorem encodeReport_opWidth (s : State) : opWidth (encodeReport s) = opWidth s := rfl
@[simp] theorem encodeReport_opHeight (s : State) : opHeight (encodeReport s) = opHeight s := rfl
@[simp] theorem encodeReport_opPayLen (s : State) : opPayLen (encodeReport s) = opPayLen s := rfl
@[simp] theorem encodeReport_opNameLenIn (s : State) : opNameLenIn (encodeReport s) = opNameLenIn s := rfl
@[simp] theorem encodeReport_pixelCount (s : State) : pixelCount (encodeReport s) = pixelCount s := rfl
@[simp] theorem frameBits_startCommand (c : BitVec 32) (s : State) : frameBits (startCommand c s) = frameBits s := rfl
@[simp] theorem frameBits_encodeReport (s : State) : frameBits (encodeReport s) = frameBits s := rfl

end Sys2Proof.Machine
end

