-- ==== Sys2Proof/Laws/Units.lean ====
section
/-! SUPPORT. Lengths and small laws of the units: the serializer, the header codec, the walks. -/

namespace Sys2Proof.Machine

/-! ### The bit serializer -/

@[simp] theorem byteBits_length (b : Byte) : (byteBits b).length = 8 := rfl

@[simp] theorem bytesToBits_nil : bytesToBits [] = [] := rfl

@[simp] theorem bytesToBits_cons (b : Byte) (d : List Byte) : bytesToBits (b :: d) = byteBits b ++ bytesToBits d := by
  simp [bytesToBits]

theorem bytesToBits_length (d : List Byte) : (bytesToBits d).length = 8 * d.length := by
  induction d with
  | nil => rfl
  | cons b d ih => simp [ih]; omega

/-- bitsToBytes has a result exactly on lengths that are multiples of 8, and then one byte for 8 bits. -/
theorem bitsToBytes_spec (bits : Bitstream) :
    (bits.length % 8 = 0 → ∃ d, bitsToBytes bits = some d ∧ 8 * d.length = bits.length) ∧
    (bits.length % 8 ≠ 0 → bitsToBytes bits = none) := by
  fun_induction bitsToBytes bits with
  | case1 => simp
  | case2 b7 b6 b5 b4 b3 b2 b1 b0 rest ih =>
    simp only [List.length_cons, ne_eq]
    refine ⟨fun h => ?_, fun h => ?_⟩
    · obtain ⟨d, hd, hl⟩ := ih.1 (by omega)
      exact ⟨_, by rw [hd]; rfl, by simp; omega⟩
    · rw [ih.2 (by omega)]; rfl
  | case3 t h1 h2 =>
    refine ⟨fun h => ?_, fun _ => rfl⟩
    exfalso
    match t, h1, h2, h with
    | [], h1, _, _ => exact h1 rfl
    | _ :: _ :: _ :: _ :: _ :: _ :: _ :: _ :: rest, _, h2, _ => exact h2 _ _ _ _ _ _ _ _ _ rfl

theorem bytesOfSpan_ok {bits : Bitstream} (h : bits.length % 8 = 0) :
    ∃ d, bytesOfSpan bits = .ok d ∧ 8 * d.length = bits.length := by
  obtain ⟨d, hd, hl⟩ := (bitsToBytes_spec bits).1 h
  exact ⟨d, by simp [bytesOfSpan, hd], hl⟩

theorem slice_length {α : Type} (l : List α) (a b : Nat) : (slice l a b).length = min b l.length - a := by
  simp [slice]

/-! ### The header codec -/

theorem foldl_be_lt (bs : List Byte) (v : Nat) :
    bs.foldl (fun v b => 256 * v + b.toNat) v < 256 ^ bs.length * (v + 1) := by
  induction bs generalizing v with
  | nil => simp
  | cons b bs ih =>
    have hb := b.isLt
    calc _ < 256 ^ bs.length * (256 * v + b.toNat + 1) := ih _
      _ ≤ 256 ^ bs.length * (256 * (v + 1)) := Nat.mul_le_mul_left _ (by omega)
      _ = 256 ^ (bs.length + 1) * (v + 1) := by ring

theorem beValue_lt (bs : List Byte) : beValue bs < 256 ^ bs.length := by
  have h := foldl_be_lt bs 0
  simp only [Nat.zero_add, Nat.mul_one] at h
  exact h

/-- What a successful unpackHeader returns, and that it fails only by its three errors. -/
theorem unpackHeader_spec (bits : Bitstream) :
    match unpackHeader bits with
    | .ok hdr => hdr.nameBytes.length ≤ 65535 ∧ hdr.payloadLen < 2 ^ 32 ∧
        hdr.headerBits = 8 * (11 + hdr.nameBytes.length) ∧ hdr.headerBits ≤ bits.length ∧
        hdr.filename = utf8Lossy hdr.nameBytes
    | .error e => e = .raised .headerTooShort ∨ e = .raised .noStegoHeader ∨ e = .raised .corruptHeader := by
  unfold unpackHeader
  by_cases h88 : bits.length < 8 * fixedHeaderBytes
  · simp [h88]
  rw [if_neg h88]
  simp only [fixedHeaderBytes] at h88
  obtain ⟨fixed, hf, hfl⟩ := bytesOfSpan_ok (bits := slice bits 0 (8 * fixedHeaderBytes))
    (by simp only [slice_length, fixedHeaderBytes]; omega)
  rw [hf]
  simp only [slice_length, fixedHeaderBytes] at hfl
  by_cases hm : slice fixed 0 5 ≠ magic
  · simp [hm]
  simp only [hm, if_false]
  unfold unpackVariable
  have hn := beValue_lt (slice fixed 5 7)
  have hp := beValue_lt (slice fixed 7 11)
  rw [slice_length] at hn hp
  rw [show min 7 fixed.length - 5 = 2 by omega] at hn
  rw [show min 11 fixed.length - 7 = 4 by omega] at hp
  by_cases hc : bits.length < headerBitsOf (beValue (slice fixed 5 7))
  · simp [hc]
  simp only [hc, if_false]
  simp only [headerBitsOf, fixedHeaderBytes] at hc
  obtain ⟨name, hnm, hnl⟩ := bytesOfSpan_ok
    (bits := slice bits (8 * fixedHeaderBytes) (headerBitsOf (beValue (slice fixed 5 7))))
    (by simp only [slice_length, headerBitsOf, fixedHeaderBytes]; omega)
  rw [hnm]
  simp only [slice_length, headerBitsOf, fixedHeaderBytes] at hnl
  simp only [headerBitsOf, fixedHeaderBytes]
  exact ⟨by omega, by omega, by omega, by omega, trivial⟩

/-! ### utf8_lossy -/

theorem utf8Continue_length (need lo hi cp : Nat) (bs : List Byte) :
    (utf8Continue need lo hi cp bs).2.2.length ≤ bs.length := by
  induction need generalizing lo hi cp bs with
  | zero => simp [utf8Continue]
  | succ need ih =>
    cases bs with
    | nil => simp [utf8Continue]
    | cons c bs =>
      simp only [utf8Continue]
      split
      · simp
      · exact Nat.le_trans (ih _ _ _ _) (by simp)

/-- Fuel beyond the number of bytes changes nothing. -/
theorem utf8Loop_fuel (fuel fuel' : Nat) (bs : List Byte) (h : bs.length ≤ fuel) (h' : bs.length ≤ fuel') :
    utf8Loop fuel bs = utf8Loop fuel' bs := by
  induction fuel generalizing fuel' bs with
  | zero =>
    cases bs with
    | nil => cases fuel' <;> rfl
    | cons b bs => simp at h
  | succ fuel ih =>
    cases bs with
    | nil => cases fuel' <;> rfl
    | cons b bs =>
      cases fuel' with
      | zero => simp at h'
      | succ fuel' =>
        simp only [List.length_cons, Nat.add_le_add_iff_right] at h h'
        simp only [utf8Loop]
        split
        · rw [ih fuel' bs h h']
        · rw [ih fuel' bs h h']
        · rename_i need lo hi cp _
          have hl := utf8Continue_length need lo hi cp bs
          split <;> rename_i hc <;> rw [hc] at hl <;> rw [ih fuel' _ (by simp at hl; omega) (by simp at hl; omega)]

theorem utf8Loop_length (fuel : Nat) (bs : List Byte) : (utf8Loop fuel bs).length ≤ bs.length := by
  induction fuel generalizing bs with
  | zero => simp [utf8Loop]
  | succ fuel ih =>
    cases bs with
    | nil => simp [utf8Loop]
    | cons b bs =>
      simp only [utf8Loop]
      split
      · simpa using ih bs
      · simpa using ih bs
      · rename_i need lo hi cp _
        have hl := utf8Continue_length need lo hi cp bs
        split <;> rename_i rest hc <;> rw [hc] at hl <;> have := ih rest <;> simp at hl ⊢ <;> omega

/-- The decode emits at most one code point a byte. -/
theorem utf8Lossy_length (bs : List Byte) : (utf8Lossy bs).length ≤ bs.length := utf8Loop_length _ _

@[simp] theorem utf8Lossy_nil : utf8Lossy [] = [] := rfl

/-- One pass of the decode, without its fuel. -/
theorem utf8Lossy_cons (b : Byte) (bs : List Byte) : utf8Lossy (b :: bs) =
    match utf8Lead b.toNat with
    | .single => BitVec.ofNat 21 b.toNat :: utf8Lossy bs
    | .invalid => replacementChar :: utf8Lossy bs
    | .multi need lo hi cp =>
      let taken := utf8Continue need lo hi cp bs
      (if taken.2.1 then BitVec.ofNat 21 taken.1 else replacementChar) :: utf8Lossy taken.2.2 := by
  simp only [utf8Lossy, List.length_cons, utf8Loop]
  cases utf8Lead b.toNat with
  | single => rfl
  | invalid => rfl
  | multi need lo hi cp =>
    have hl := utf8Continue_length need lo hi cp bs
    cases hc : utf8Continue need lo hi cp bs with
    | mk cp' p =>
      obtain ⟨ok, rest⟩ := p
      rw [hc] at hl
      cases ok <;> simp [hc, utf8Loop_fuel _ _ _ hl (Nat.le_refl _)]

/-- What a list that begins with the encoding of a scalar value looks like. -/
theorem utf8Encode_prefix_cases {cp : CodePoint} (h : scalarValue cp = true) {l : List Byte} (hp : utf8Encode cp <+: l) :
    (∃ a t, a :: t = l ∧ a.toNat < 0x80) ∨
    (∃ a b t, a :: b :: t = l ∧ 0xC2 ≤ a.toNat ∧ a.toNat < 0xE0 ∧ 0x80 ≤ b.toNat ∧ b.toNat < 0xC0) ∨
    (∃ a b c t, a :: b :: c :: t = l ∧ 0xE0 ≤ a.toNat ∧ a.toNat < 0xF0 ∧ 0x80 ≤ b.toNat ∧ b.toNat < 0xC0 ∧
      (a.toNat = 0xED → b.toNat < 0xA0) ∧ 0x80 ≤ c.toNat ∧ c.toNat < 0xC0) ∨
    (∃ a b c d t, a :: b :: c :: d :: t = l ∧ 0xF0 ≤ a.toNat ∧ a.toNat < 0xF5) := by
  obtain ⟨t, rfl⟩ := hp
  simp only [scalarValue] at h
  have hn := cp.isLt
  generalize hk : cp.toNat = n at *
  simp only [utf8Encode, hk]
  split
  · refine .inl ⟨_, t, rfl, ?_⟩
    rw [BitVec.toNat_ofNat]; omega
  split
  · refine .inr (.inl ⟨_, _, t, rfl, ?_⟩)
    simp only [BitVec.toNat_ofNat]; omega
  split
  · refine .inr (.inr (.inl ⟨_, _, _, t, rfl, ?_⟩))
    simp at h
    simp only [BitVec.toNat_ofNat]; omega
  · refine .inr (.inr (.inr ⟨_, _, _, _, t, rfl, ?_⟩))
    simp at h
    simp only [BitVec.toNat_ofNat]; omega


/-! ### The walks -/

@[simp] theorem setLsb_lsb (v : Byte) (b : Bool) : (setLsb v b).getLsbD 0 = b := by
  cases b <;> simp [setLsb]

theorem setLsb_upper (v : Byte) (b : Bool) : (setLsb v b) >>> 1 = v >>> 1 := by
  revert v b; decide +kernel

theorem embed_length (image : List Pixel) (bits : Bitstream) : (embed image bits).length = image.length := by
  fun_induction embed image bits <;> simp_all

@[simp] theorem embed_nil_bits (image : List Pixel) : embed image [] = image := by cases image <;> rfl

theorem extract_length (image : List Pixel) : (extract image).length = 3 * image.length := by
  induction image with
  | nil => rfl
  | cons p ps ih =>
    rw [extract, List.flatMap_cons, List.length_append, ← extract, ih]
    simp [pixelLsbs]; omega

theorem imageOnes_le (image : List Pixel) : imageOnes image ≤ 3 * image.length := by
  induction image with
  | nil => simp [imageOnes]
  | cons p ps ih =>
    have hb : ∀ b : Bool, b.toNat ≤ 1 := by decide
    have := hb (p.r.getLsbD 0)
    have := hb (p.g.getLsbD 0)
    have := hb (p.b.getLsbD 0)
    simp only [imageOnes, List.map_cons, List.sum_cons, List.length_cons] at ih ⊢
    omega

end Sys2Proof.Machine
end

