-- ==== Sys2Proof/Laws/Command.lean ====
section
/-! SUPPORT. What a command can do, once: the shared start, end and refusals, and one inversion lemma per command. -/

namespace Sys2Proof.Machine

theorem runCommand_next {c : BitVec 32} {rule : State → Out} {s t : State} :
    runCommand c rule s = .next t ↔ s.phase ≠ .busy ∧ rule (startCommand c s) = .next t := by
  unfold runCommand; split <;> simp_all

theorem withinMaxPixels_next {rule : State → Out} {s t : State} :
    withinMaxPixels rule s = .next t ↔ pixelCount s ≤ s.cfg.maxPixels ∧ rule s = .next t := by
  unfold withinMaxPixels
  split
  · simp; omega
  · rename_i h; simp [Nat.le_of_not_lt h]

theorem finishCommand_next {a t : State} {x : Except Stop State} :
    finishCommand a x = .next t ↔
      (∃ u, x = .ok u ∧ t = endCommand .none u) ∨ (∃ e, x = .error (.raised e) ∧ t = endCommand e a) := by
  unfold finishCommand
  split <;> simp [eq_comm]

theorem inputCells_ok {α : Type} {sp : Space} {m : Memory α} {n : Nat} {vs : List α} :
    inputCells sp m n = .ok vs ↔ readCells m 0 n = some vs := by
  unfold inputCells; split <;> simp_all

theorem inputCells_error {α : Type} {sp : Space} {m : Memory α} {n : Nat} {e : Stop} :
    inputCells sp m n = .error e ↔ readCells m 0 n = none ∧ e = .refused (.cellHoldsNoValue sp) := by
  unfold inputCells
  cases readCells m 0 n <;> simp [eq_comm]

theorem encodeBody_ok {s u : State} : encodeBody s = .ok u ↔
    frameBits s ≤ capacityBits (opWidth s) (opHeight s) ∧ ∃ name payload image,
      readCells s.nameIn 0 (nameLenUsed (opNameLenIn s)) = some name ∧
      readCells s.payIn 0 (opPayLen s) = some payload ∧ readCells s.pixIn 0 (pixelCount s) = some image ∧
      u = encodeWrites image name payload s := by
  unfold encodeBody inputName inputPayload inputImage inputCells
  split
  · simp; omega
  · rename_i h
    have h' : frameBits s ≤ capacityBits (opWidth s) (opHeight s) := by omega
    cases readCells s.nameIn 0 (nameLenUsed (opNameLenIn s)) <;> simp [h']
    cases readCells s.payIn 0 (opPayLen s) <;> simp
    cases readCells s.pixIn 0 (pixelCount s) <;> simp [eq_comm]

theorem encodeBody_raised {s : State} {e : ErrCode} : encodeBody s = .error (.raised e) ↔
    capacityBits (opWidth s) (opHeight s) < frameBits s ∧ e = .capacityExceeded := by
  unfold encodeBody inputName inputPayload inputImage inputCells
  split
  · rename_i h; simp [h, eq_comm]
  · rename_i h
    simp only [h, false_and, iff_false]
    cases readCells s.nameIn 0 (nameLenUsed (opNameLenIn s)) <;> simp
    cases readCells s.payIn 0 (opPayLen s) <;> simp
    cases readCells s.pixIn 0 (pixelCount s) <;> simp

/-- CAPACITY answers a next state exactly outside BUSY, and this one. -/
theorem execCapacity_next {s t : State} : exec .capacity s = .next t ↔
    s.phase ≠ .busy ∧ capacityRule (startCommand (encodeWord .capacity) s) = .next t := runCommand_next

/-- The two ways ENCODE answers a next state. -/
theorem execEncode_next {s t : State} : exec .encode s = .next t ↔
    s.phase ≠ .busy ∧ pixelCount s ≤ s.cfg.maxPixels ∧
    ((capacityBits (opWidth s) (opHeight s) < frameBits s ∧
        t = endCommand .capacityExceeded (encodeReport (startCommand (encodeWord .encode) s))) ∨
      (frameBits s ≤ capacityBits (opWidth s) (opHeight s) ∧ ∃ name payload image,
        readCells s.nameIn 0 (nameLenUsed (opNameLenIn s)) = some name ∧
        readCells s.payIn 0 (opPayLen s) = some payload ∧ readCells s.pixIn 0 (pixelCount s) = some image ∧
        t = endCommand .none
          (encodeWrites image name payload (encodeReport (startCommand (encodeWord .encode) s))))) := by
  show execEncode s = .next t ↔ _
  unfold execEncode encodeRule
  rw [runCommand_next, withinMaxPixels_next, finishCommand_next]
  simp only [encodeBody_ok, encodeBody_raised, encodeReport_nameIn, encodeReport_payIn, encodeReport_pixIn,
    encodeReport_opNameLenIn, encodeReport_opPayLen, encodeReport_pixelCount, encodeReport_opWidth,
    encodeReport_opHeight, frameBits_encodeReport, startCommand_nameIn, startCommand_payIn, startCommand_pixIn,
    startCommand_opNameLenIn, startCommand_opPayLen, startCommand_pixelCount, startCommand_opWidth,
    startCommand_opHeight, frameBits_startCommand, startCommand_cfg]
  refine and_congr_right fun _ => and_congr_right fun _ => ?_
  constructor
  · rintro (⟨u, ⟨h, n, p, i, h1, h2, h3, rfl⟩, rfl⟩ | ⟨e, ⟨h, rfl⟩, rfl⟩)
    · exact .inr ⟨h, n, p, i, h1, h2, h3, rfl⟩
    · exact .inl ⟨h, rfl⟩
  · rintro (⟨h, rfl⟩ | ⟨h, n, p, i, h1, h2, h3, rfl⟩)
    · exact .inr ⟨_, ⟨h, rfl⟩, rfl⟩
    · exact .inl ⟨_, ⟨h, n, p, i, h1, h2, h3, rfl⟩, rfl⟩

/-- Steps 4 to 6 of DECODE: InsufficientData exactly when the stream is too short, else the writes with a payload of
the declared length. -/
theorem decodePayload_spec (bits : Bitstream) (hdr : Header) (s : State) (h8 : hdr.headerBits % 8 = 0) :
    if bits.length < hdr.headerBits + 8 * hdr.payloadLen then
      decodePayload bits hdr s = .error (.raised .insufficientData)
    else ∃ payload, bitsToBytes (slice bits hdr.headerBits (hdr.headerBits + 8 * hdr.payloadLen)) = some payload ∧
      payload.length = hdr.payloadLen ∧ decodePayload bits hdr s = .ok (decodeWrites hdr payload s) := by
  unfold decodePayload
  split
  · rename_i h; simp [h]
  · rename_i h
    obtain ⟨d, hd, hl⟩ := (bitsToBytes_spec
      (slice bits hdr.headerBits (hdr.headerBits + 8 * hdr.payloadLen))).1 (by rw [slice_length]; omega)
    rw [slice_length] at hl
    exact ⟨d, hd, by omega, by simp [h, bytesOfSpan, hd]⟩

/-- The ways DECODE answers a next state: an error of the header, InsufficientData, or success. -/
theorem execDecode_next {s t : State} : exec .decode s = .next t ↔
    s.phase ≠ .busy ∧ pixelCount s ≤ s.cfg.maxPixels ∧ ∃ image, readCells s.pixIn 0 (pixelCount s) = some image ∧
    ((∃ e, unpackHeader (extract image) = .error (.raised e) ∧
        t = endCommand e (startCommand (encodeWord .decode) s)) ∨
      (∃ hdr, unpackHeader (extract image) = .ok hdr ∧
        (extract image).length < hdr.headerBits + 8 * hdr.payloadLen ∧
        t = endCommand .insufficientData (startCommand (encodeWord .decode) s)) ∨
      (∃ hdr payload, unpackHeader (extract image) = .ok hdr ∧
        hdr.headerBits + 8 * hdr.payloadLen ≤ (extract image).length ∧
        bitsToBytes (slice (extract image) hdr.headerBits (hdr.headerBits + 8 * hdr.payloadLen)) = some payload ∧
        payload.length = hdr.payloadLen ∧
        t = endCommand .none (decodeWrites hdr payload (startCommand (encodeWord .decode) s)))) := by
  show execDecode s = .next t ↔ _
  unfold execDecode decodeRule
  rw [runCommand_next, withinMaxPixels_next, finishCommand_next]
  simp only [startCommand_pixelCount, startCommand_cfg]
  refine and_congr_right fun _ => and_congr_right fun _ => ?_
  unfold decodeBody inputImage inputCells
  simp only [startCommand_pixelCount, startCommand_pixIn]
  cases hr : readCells s.pixIn 0 (pixelCount s) with
  | none => simp
  | some image =>
    simp only [Option.some.injEq, exists_eq_left']
    have hs := unpackHeader_spec (extract image)
    cases hu : unpackHeader (extract image) with
    | error e => simp
    | ok hdr =>
      rw [hu] at hs
      have hp := decodePayload_spec (extract image) hdr (startCommand (encodeWord .decode) s) (by omega)
      by_cases hl : (extract image).length < hdr.headerBits + 8 * hdr.payloadLen
      · rw [if_pos hl] at hp
        simp [hp, hl]
      · rw [if_neg hl] at hp
        obtain ⟨d, hd, hdl, hp⟩ := hp
        have hl' : hdr.headerBits + 8 * hdr.payloadLen ≤ (extract image).length := by omega
        simp [hp, hl, hl', hd, hdl]

/-- The one way DETECT answers a next state. -/
theorem execDetect_next {s t : State} : exec .detect s = .next t ↔
    s.phase ≠ .busy ∧ pixelCount s ≤ s.cfg.maxPixels ∧ ∃ image, readCells s.pixIn 0 (pixelCount s) = some image ∧
      t = endCommand .none (detectWrites image (startCommand (encodeWord .detect) s)) := by
  show execDetect s = .next t ↔ _
  unfold execDetect detectRule
  rw [runCommand_next, withinMaxPixels_next, finishCommand_next]
  simp only [startCommand_pixelCount, startCommand_cfg]
  refine and_congr_right fun _ => and_congr_right fun _ => ?_
  unfold detectBody inputImage inputCells
  simp only [startCommand_pixelCount, startCommand_pixIn]
  cases readCells s.pixIn 0 (pixelCount s) <;> simp

/-! ### When a command is refused -/

theorem runCommand_refused {c : BitVec 32} {rule : State → Out} {s : State} {r : Refusal} (hb : s.phase ≠ .busy) :
    runCommand c rule s = .refused r ↔ rule (startCommand c s) = .refused r := by
  simp [runCommand, hb]

theorem withinMaxPixels_refused {rule : State → Out} {s : State} {r : Refusal} :
    withinMaxPixels rule s = .refused r ↔
      (s.cfg.maxPixels < pixelCount s ∧ r = .imageBeyondMaxPixels) ∨
      (pixelCount s ≤ s.cfg.maxPixels ∧ rule s = .refused r) := by
  unfold withinMaxPixels
  split <;> rename_i h
  · simp [h, eq_comm, Nat.not_le_of_lt h]
  · simp [h, Nat.le_of_not_lt h]

theorem finishCommand_refused {a : State} {x : Except Stop State} {r : Refusal} :
    finishCommand a x = .refused r ↔ x = .error (.refused r) := by
  unfold finishCommand; split <;> simp_all

/-- ENCODE reads the name, then the payload, then the image, once its capacity check has passed; it is refused at the
first of them with a cell without value. -/
theorem encodeBody_refused {s : State} {r : Refusal} : encodeBody s = .error (.refused r) ↔
    frameBits s ≤ capacityBits (opWidth s) (opHeight s) ∧
    ((readCells s.nameIn 0 (nameLenUsed (opNameLenIn s)) = none ∧ r = .cellHoldsNoValue .nameIn) ∨
      ((readCells s.nameIn 0 (nameLenUsed (opNameLenIn s))).isSome ∧ readCells s.payIn 0 (opPayLen s) = none ∧
        r = .cellHoldsNoValue .payIn) ∨
      ((readCells s.nameIn 0 (nameLenUsed (opNameLenIn s))).isSome ∧ (readCells s.payIn 0 (opPayLen s)).isSome ∧
        readCells s.pixIn 0 (pixelCount s) = none ∧ r = .cellHoldsNoValue .pixIn)) := by
  unfold encodeBody inputName inputPayload inputImage inputCells
  split
  · simp; omega
  · rename_i h
    cases readCells s.nameIn 0 (nameLenUsed (opNameLenIn s)) with
    | none => simp [Nat.le_of_not_lt h, eq_comm (b := r)]
    | some _ =>
      cases readCells s.payIn 0 (opPayLen s) with
      | none => simp [Nat.le_of_not_lt h, eq_comm (b := r)]
      | some _ => cases readCells s.pixIn 0 (pixelCount s) <;> simp [Nat.le_of_not_lt h, eq_comm (b := r)]

theorem decodeBody_refused {s : State} {r : Refusal} : decodeBody s = .error (.refused r) ↔
    readCells s.pixIn 0 (pixelCount s) = none ∧ r = .cellHoldsNoValue .pixIn := by
  unfold decodeBody inputImage
  cases hr : readCells s.pixIn 0 (pixelCount s) with
  | none => simp [inputCells_error.2 ⟨hr, rfl⟩, eq_comm (b := r)]
  | some image =>
    rw [inputCells_ok.2 hr]
    have hs := unpackHeader_spec (extract image)
    cases hu : unpackHeader (extract image) with
    | error e => rw [hu] at hs; rcases hs with rfl | rfl | rfl <;> simp [hu]
    | ok hdr =>
      rw [hu] at hs
      have hp := decodePayload_spec (extract image) hdr s (by omega)
      split at hp
      · simp [hu, hp]
      · obtain ⟨p, _, _, hp⟩ := hp; simp [hu, hp]

theorem detectBody_refused {s : State} {r : Refusal} : detectBody s = .error (.refused r) ↔
    readCells s.pixIn 0 (pixelCount s) = none ∧ r = .cellHoldsNoValue .pixIn := by
  unfold detectBody inputImage inputCells
  cases readCells s.pixIn 0 (pixelCount s) <;> simp [eq_comm (b := r)]

end Sys2Proof.Machine
end

