-- ==== Sys2Proof/Laws/HostPort.lean ====
section
/-! SUPPORT. What a step can do, once: a command word, an illegal word, no action, or another action of the host. -/

namespace Sys2Proof.Machine

theorem nextCommand_eq_some {s u : State} {c : BitVec 32} :
    nextCommand s = some (c, u) ↔ (∃ rest, s.host.queue = .writeReg 0 c :: rest) ∧ u = dropAction s := by
  unfold nextCommand
  split
  · rename_i c' rest h
    constructor
    · intro e; cases e; exact ⟨⟨rest, h⟩, rfl⟩
    · rintro ⟨⟨r, hr⟩, rfl⟩; rw [h] at hr; cases hr; rfl
  · rename_i h
    simp only [false_iff, reduceCtorEq]
    rintro ⟨⟨rest, hq⟩, _⟩
    exact h c rest hq

/-- A step on a word that decodes runs that command. -/
theorem step_command {s : State} {c : BitVec 32} {rest : List HostAction} {i : Instr}
    (hq : s.host.queue = .writeReg 0 c :: rest) (hd : decodeWord c = .ok i) : step s = exec i (dropAction s) := by
  have h : nextCommand s = some (c, dropAction s) := nextCommand_eq_some.2 ⟨⟨rest, hq⟩, rfl⟩
  simp [step, h, hd]

/-- A step on a word that does not decode ends it as an illegal command. -/
theorem step_illegal {s : State} {c : BitVec 32} {rest : List HostAction} {e : DecodeError}
    (hq : s.host.queue = .writeReg 0 c :: rest) (hd : decodeWord c = .error e) :
    step s = illegalCommand c (dropAction s) := by
  have h : nextCommand s = some (c, dropAction s) := nextCommand_eq_some.2 ⟨⟨rest, hq⟩, rfl⟩
  simp [step, h, hd]

/-- A step on any other action of the host is that action. -/
theorem step_hostAct {s : State} {act : HostAction} {rest : List HostAction} (hq : s.host.queue = act :: rest)
    (hc : ∀ c, act ≠ .writeReg 0 c) : step s = hostAct act (dropAction s) := by
  have h : nextCommand s = none := by
    cases hn : nextCommand s with
    | none => rfl
    | some p =>
      obtain ⟨⟨r, hr⟩, _⟩ := nextCommand_eq_some.1 (show nextCommand s = some (p.1, p.2) from hn)
      rw [hq, List.cons.injEq] at hr
      exact absurd hr.1 (hc p.1)
  simp [step, h, hostStep, hq]

/-- Every way a step answers a next state. -/
theorem step_next {s t : State} (h : step s = .next t) :
    (s.host.queue = [] ∧ t = s) ∨
    (∃ (c : BitVec 32) (i : Instr) (rest : List HostAction), s.host.queue = .writeReg 0 c :: rest ∧
      decodeWord c = .ok i ∧ exec i (dropAction s) = .next t) ∨
    (∃ (c : BitVec 32) (e : DecodeError) (rest : List HostAction), s.host.queue = .writeReg 0 c :: rest ∧
      decodeWord c = .error e ∧
      illegalCommand c (dropAction s) = .next t) ∨
    (∃ act rest, s.host.queue = act :: rest ∧ (∀ c, act ≠ .writeReg 0 c) ∧ hostAct act (dropAction s) = .next t) := by
  cases hq : s.host.queue with
  | nil =>
    have hn : nextCommand s = none := by simp [nextCommand, hq]
    simp only [step, hn, hostStep, hq, Host.Outcome.next.injEq] at h
    exact .inl ⟨rfl, h.symm⟩
  | cons act rest =>
    by_cases hc : ∃ c, act = .writeReg 0 c
    · obtain ⟨c, rfl⟩ := hc
      cases hd : decodeWord c with
      | ok i => exact .inr (.inl ⟨c, i, rest, rfl, hd, by rw [← step_command hq hd]; exact h⟩)
      | error e => exact .inr (.inr (.inl ⟨c, e, rest, rfl, hd, by rw [← step_illegal hq hd]; exact h⟩))
    · have hc' : ∀ c, act ≠ .writeReg 0 c := fun c hh => hc ⟨c, hh⟩
      exact .inr (.inr (.inr ⟨act, rest, rfl, hc', by rw [← step_hostAct hq hc']; exact h⟩))

theorem whenOwned_next {s t : State} {o : Out} : whenOwned s o = .next t ↔ s.phase ≠ .busy ∧ o = .next t := by
  unfold whenOwned; split <;> simp_all

theorem onCells_next {s t u : State} {sp : Space} {a n : Nat} :
    onCells s sp a n u = .next t ↔ s.phase ≠ .busy ∧ cellsExist s.cfg sp a n = true ∧ t = u := by
  unfold onCells
  rw [whenOwned_next]
  refine and_congr_right fun _ => ?_
  cases cellsExist s.cfg sp a n <;> simp [eq_comm]

/-- What the host reads of a range: one value a cell, the cell's own where it holds one. -/
theorem hostCells_answersRead {α : Type} (ofWord : BitVec 24 → α) (epoch : Nat) (sp : Space) (m : Memory α) (a n : Nat) :
    answersRead m a n (hostCells ofWord epoch sp m a n) := by
  refine ⟨by simp [hostCells], fun i v hi hv => ?_⟩
  simp [hostCells, hi, hv]

/-- What a host write of an operand register can change. -/
theorem writeRegister_cases (s : State) (n : Nat) (v : BitVec (regWidth n)) :
    (∃ w, writeRegister s n v = { s with width := w }) ∨ (∃ w, writeRegister s n v = { s with height := w }) ∨
    (∃ w, writeRegister s n v = { s with payLen := w }) ∨ (∃ w, writeRegister s n v = { s with nameLen := w }) ∨
    writeRegister s n v = s := by
  unfold writeRegister
  split
  · exact .inl ⟨_, rfl⟩
  · exact .inr (.inl ⟨_, rfl⟩)
  · exact .inr (.inr (.inl ⟨_, rfl⟩))
  · exact .inr (.inr (.inr (.inl ⟨_, rfl⟩)))
  · exact .inr (.inr (.inr (.inr rfl)))

end Sys2Proof.Machine
end

