-- ==== Sys2Proof/Laws/Memory.lean ====
section
/-! SUPPORT. The laws of a memory space: reading after writing, the canonical form, and block reads. -/

namespace Sys2Proof.Machine

variable {α : Type}

@[simp] theorem readCell_nil (a : Nat) : readCell ([] : Memory α) a = none := rfl

theorem readCell_append (m n : Memory α) (a : Nat) :
    readCell (m ++ n) a = (readCell m a).or (readCell n a) := by
  induction m with
  | nil => simp
  | cons c m ih =>
    obtain ⟨k, v⟩ := c
    simp only [List.cons_append, readCell]
    split <;> simp_all

theorem readCell_filter (m : Memory α) (p : Nat → Bool) (a : Nat) :
    readCell (m.filter fun c => p c.1) a = if p a then readCell m a else none := by
  induction m with
  | nil => simp
  | cons c m ih =>
    obtain ⟨k, v⟩ := c
    simp only [List.filter_cons, readCell]
    split <;> rename_i hk
    · simp only [readCell, ih]
      by_cases h : k = a
      · subst h; simp [hk]
      · simp [h]
    · rw [ih]
      by_cases h : k = a
      · subst h; simp [hk]
      · simp [h]

theorem readCell_cellBlock (a : Nat) (vs : List α) (x : Nat) :
    readCell (cellBlock a vs) x = if a ≤ x ∧ x < a + vs.length then vs[x - a]? else none := by
  induction vs generalizing a with
  | nil => simp [cellBlock]
  | cons v vs ih =>
    simp only [cellBlock, readCell, ih, List.length_cons]
    by_cases h : a = x
    · subst h; simp
    · rw [if_neg h]
      by_cases h2 : a + 1 ≤ x ∧ x < a + 1 + vs.length
      · rw [if_pos h2, if_pos (by omega), show x - a = x - (a + 1) + 1 by omega, List.getElem?_cons_succ]
      · rw [if_neg h2, if_neg (by omega)]

/-- A write gives exactly its cells the values; every other cell keeps what it held. -/
theorem readCell_writeCells (a : Nat) (vs : List α) (m : Memory α) (x : Nat) :
    readCell (writeCells a vs m) x = if a ≤ x ∧ x < a + vs.length then vs[x - a]? else readCell m x := by
  unfold writeCells
  rw [readCell_append, readCell_append, readCell_cellBlock,
    readCell_filter m (fun k => decide (k < a)), readCell_filter m (fun k => decide (a + vs.length ≤ k))]
  by_cases h1 : x < a
  · simp [h1, show ¬ (a ≤ x) by omega, show ¬ (a + vs.length ≤ x) by omega]
  · by_cases h2 : x < a + vs.length
    · simp [h1, h2, show a ≤ x by omega, show ¬ (a + vs.length ≤ x) by omega]
    · simp [h1, h2, show a + vs.length ≤ x by omega]

theorem mem_cellBlock_key {a : Nat} {vs : List α} {c : Nat × α} (h : c ∈ cellBlock a vs) :
    a ≤ c.1 ∧ c.1 < a + vs.length := by
  induction vs generalizing a with
  | nil => simp [cellBlock] at h
  | cons v vs ih =>
    simp only [cellBlock, List.mem_cons] at h
    rcases h with rfl | h
    · simp
    · have := ih h; simp only [List.length_cons]; omega

theorem mem_cellBlock_value {a : Nat} {vs : List α} {c : Nat × α} (h : c ∈ cellBlock a vs) : c.2 ∈ vs := by
  induction vs generalizing a with
  | nil => simp [cellBlock] at h
  | cons v vs ih =>
    simp only [cellBlock, List.mem_cons] at h
    rcases h with rfl | h
    · simp
    · exact List.mem_cons_of_mem _ (ih h)

theorem cellBlock_wf (a : Nat) (vs : List α) : Memory.wf (cellBlock a vs) := by
  induction vs generalizing a with
  | nil => simp [cellBlock]
  | cons v vs ih =>
    simp only [cellBlock, Memory.wf, List.pairwise_cons]
    exact ⟨fun c hc => by have := mem_cellBlock_key hc; omega, ih _⟩

/-- Every write keeps the canonical form. -/
theorem writeCells_wf (a : Nat) (vs : List α) {m : Memory α} (h : m.wf) : (writeCells a vs m).wf := by
  unfold writeCells Memory.wf
  rw [List.pairwise_append, List.pairwise_append]
  refine ⟨⟨h.filter _, cellBlock_wf a vs, ?_⟩, h.filter _, ?_⟩
  · intro x hx y hy
    have := mem_cellBlock_key hy
    simp only [List.mem_filter, decide_eq_true_eq] at hx
    omega
  · intro x hx y hy
    simp only [List.mem_filter, decide_eq_true_eq] at hy
    rcases List.mem_append.1 hx with hx | hx
    · simp only [List.mem_filter, decide_eq_true_eq] at hx
      omega
    · have := mem_cellBlock_key hx
      omega

/-- A listed cell after a write is one of the written ones or was listed before. -/
theorem mem_writeCells {a : Nat} {vs : List α} {m : Memory α} {c : Nat × α} (h : c ∈ writeCells a vs m) :
    (a ≤ c.1 ∧ c.1 < a + vs.length ∧ c.2 ∈ vs) ∨ c ∈ m := by
  unfold writeCells at h
  rcases List.mem_append.1 h with h | h
  · rcases List.mem_append.1 h with h | h
    · exact .inr (List.mem_of_mem_filter h)
    · exact .inl ⟨(mem_cellBlock_key h).1, (mem_cellBlock_key h).2, mem_cellBlock_value h⟩
  · exact .inr (List.mem_of_mem_filter h)

@[simp] theorem readCells_zero (m : Memory α) (a : Nat) : readCells m a 0 = some [] := by cases m <;> rfl

theorem readCells_length {m : Memory α} {a n : Nat} {vs : List α} (h : readCells m a n = some vs) :
    vs.length = n := by
  induction m generalizing a n vs with
  | nil =>
    cases n with
    | zero => simp at h; simp [← h]
    | succ n => simp [readCells] at h
  | cons c m ih =>
    obtain ⟨k, v⟩ := c
    cases n with
    | zero => simp at h; simp [← h]
    | succ n =>
      simp only [readCells] at h
      split at h
      · exact ih h
      · split at h
        · obtain ⟨ws, hw, rfl⟩ := Option.map_eq_some_iff.1 h
          simp [ih hw]
        · cases h

theorem readCell_eq_none_of_lt {m : Memory α} {a : Nat} (h : ∀ c ∈ m, a < c.1) : readCell m a = none := by
  induction m with
  | nil => rfl
  | cons c m ih =>
    obtain ⟨k, v⟩ := c
    have hk : a < k := h _ (List.mem_cons_self ..)
    simp [readCell, show k ≠ a by omega, ih fun c hc => h c (List.mem_cons_of_mem _ hc)]

/-- On a canonical memory the one-pass block read is the cell-by-cell read. -/
theorem readCells_eq_some_iff {m : Memory α} (hm : m.wf) (a n : Nat) (vs : List α) :
    readCells m a n = some vs ↔ vs.length = n ∧ ∀ i, i < n → readCell m (a + i) = vs[i]? := by
  induction m generalizing a n vs with
  | nil =>
    cases n with
    | zero => simp [eq_comm]
    | succ n =>
      refine ⟨fun h => by simp [readCells] at h, ?_⟩
      rintro ⟨hl, h⟩
      have h0 := h 0 (by omega)
      rw [readCell_nil] at h0
      have := List.getElem?_eq_none_iff.1 h0.symm
      omega
  | cons c m ih =>
    obtain ⟨k, v⟩ := c
    have hm' : Memory.wf m := (List.pairwise_cons.1 hm).2
    have hk : ∀ c ∈ m, k < c.1 := (List.pairwise_cons.1 hm).1
    cases n with
    | zero => simp [eq_comm]
    | succ n =>
      simp only [readCells]
      split
      · rw [ih hm']
        refine and_congr_right fun _ => forall_congr' fun i => forall_congr' fun _ => ?_
        simp [readCell, show k ≠ a + i by omega]
      · split
        · rename_i h1 h2
          subst h2
          rw [Option.map_eq_some_iff]
          constructor
          · rintro ⟨ws, hw, rfl⟩
            obtain ⟨hl, hr⟩ := (ih hm' _ _ _).1 hw
            refine ⟨by simp [hl], fun i hi => ?_⟩
            cases i with
            | zero => simp [readCell]
            | succ i =>
              rw [List.getElem?_cons_succ, ← hr i (by omega), show k + 1 + i = k + (i + 1) by omega]
              simp [readCell]
          · rintro ⟨hl, hr⟩
            cases vs with
            | nil => simp at hl
            | cons w ws =>
              have h0 := hr 0 (by omega)
              simp [readCell] at h0
              subst h0
              refine ⟨ws, (ih hm' _ _ _).2 ⟨by simpa using hl, fun i hi => ?_⟩, rfl⟩
              have := hr (i + 1) (by omega)
              rw [List.getElem?_cons_succ] at this
              rw [← this, show k + 1 + i = k + (i + 1) by omega]
              simp [readCell]
        · rename_i h1 h2
          refine ⟨fun h => by simp at h, fun ⟨hl, hr⟩ => ?_⟩
          have h0 := hr 0 (by omega)
          rw [Nat.add_zero, readCell, if_neg (by omega),
            readCell_eq_none_of_lt fun c hc => by have := hk c hc; omega] at h0
          have := List.getElem?_eq_none_iff.1 h0.symm
          omega

theorem readCells_isSome_iff {m : Memory α} (hm : m.wf) (a n : Nat) :
    (readCells m a n).isSome ↔ ∀ i, i < n → (readCell m (a + i)).isSome := by
  constructor
  · intro h i hi
    obtain ⟨vs, hv⟩ := Option.isSome_iff_exists.1 h
    obtain ⟨hl, hr⟩ := (readCells_eq_some_iff hm a n vs).1 hv
    rw [hr i hi]
    simp [hl, hi]
  · intro h
    refine Option.isSome_iff_exists.2 ⟨(List.finRange n).map fun i => (readCell m (a + i.1)).get (h i.1 i.2), ?_⟩
    rw [readCells_eq_some_iff hm]
    refine ⟨by simp, fun i hi => ?_⟩
    simp [hi]

/-- A command can read the first `n` cells exactly when each holds a value. -/
theorem cellsHeld_iff_isSome {m : Memory α} (hm : m.wf) (n : Nat) : cellsHeld m n ↔ (readCells m 0 n).isSome := by
  simp [readCells_isSome_iff hm, cellsHeld]

theorem readCells_cellBlock_append (a : Nat) (vs : List α) (m : Memory α) :
    readCells (cellBlock a vs ++ m) a vs.length = some vs := by
  induction vs generalizing a with
  | nil => simp
  | cons v vs ih => simp [cellBlock, readCells, ih]

/-- The cells just written from index 0 are read back, whatever the space held. -/
theorem readCells_writeCells_zero (vs : List α) (m : Memory α) :
    readCells (writeCells 0 vs m) 0 vs.length = some vs := by
  have : m.filter (fun c => decide (c.1 < 0)) = [] := by simp
  rw [writeCells, this, List.nil_append]
  exact readCells_cellBlock_append 0 vs _

end Sys2Proof.Machine
end

