-- ==== Sys2Proof/Laws/PerInstr.lean ====
section
/-! SUPPORT. Statements per instruction: each command's word decodes to it (30_encoding.md R91). -/

/-- The command is well-formed, its word is legal, and the decoder reads it back. -/
def Sys2Proof.Laws.WordReadsBack.Statement (i : Sys2Proof.Instr) : Prop :=
  i.wf = true ∧ Sys2Proof.legalWord (Sys2Proof.encodeWord i) = true ∧
    Sys2Proof.decodeWord (Sys2Proof.encodeWord i) = .ok i

theorem Sys2Proof.Laws.WordReadsBack.capacity : Sys2Proof.Laws.WordReadsBack.Statement .capacity :=
  ⟨rfl, by decide, by rfl⟩

theorem Sys2Proof.Laws.WordReadsBack.encode : Sys2Proof.Laws.WordReadsBack.Statement .encode :=
  ⟨rfl, by decide, by rfl⟩

theorem Sys2Proof.Laws.WordReadsBack.decode : Sys2Proof.Laws.WordReadsBack.Statement .decode :=
  ⟨rfl, by decide, by rfl⟩

theorem Sys2Proof.Laws.WordReadsBack.detect : Sys2Proof.Laws.WordReadsBack.Statement .detect :=
  ⟨rfl, by decide, by rfl⟩
end

