-- ==== Sys2Proof/Tests/Slice0.lean ====
section
/-! SUPPORT. Tests: the ill-formed terms the checks refuse, the command words written out bit by bit, one step of each
command against a vector of 95_test_vectors.md, and a witness for the hypotheses of every statement. -/

namespace Sys2Proof.Tests

open Sys2Proof.Machine

/-! ### Helpers -/

/-- The reset state with a w by h image in PIX_IN. -/
def withImage (w h : Nat) (image : List Pixel) : State :=
  { State.reset with width := BitVec.ofNat 16 w, height := BitVec.ofNat 16 h, pixIn := cellBlock 0 image }

/-- With a payload and a filename in place. -/
def withFrame (payload name : List Byte) (s : State) : State :=
  { s with
    payLen := BitVec.ofNat 32 payload.length, nameLen := BitVec.ofNat 32 name.length
    payIn := cellBlock 0 payload, nameIn := cellBlock 0 name }

/-- With the host about to take these actions. -/
def withQueue (q : List HostAction) (s : State) : State := { s with host := ⟨q, none⟩ }

/-- A state in which STATE is BUSY; no run reaches one. -/
def busyState : State := { State.reset with phase := .busy }

def isNext : Out → Bool
  | .next _ => true
  | .fault _ => false
  | .refused _ => false

def nextOf : Out → State
  | .next s => s
  | .fault _ => State.reset
  | .refused _ => State.reset

theorem eq_next_of_isNext {o : Out} (h : isNext o = true) : o = .next (nextOf o) := by
  cases o <;> simp_all [isNext, nextOf]

/-- An image from its LSB triples, each a number 0 to 7 with R in bit 2 (45_detector.md R205). -/
def ofTriples (l : List Nat) : List Pixel :=
  l.map fun t => ⟨BitVec.ofNat 8 (t / 4), BitVec.ofNat 8 (t / 2 % 2), BitVec.ofNat 8 (t % 2)⟩

/-! ### Well-formedness: each check refuses an ill-formed term -/

theorem test_legalWord_refuses_zero : legalWord 0#32 = false := by decide
theorem test_legalWord_refuses_five : legalWord 5#32 = false := by decide
theorem test_legalWord_refuses_bit_four : legalWord 0x11#32 = false := by decide
theorem test_scalarValue_refuses_surrogate : scalarValue 0xD800#21 = false := by decide
theorem test_scalarValue_refuses_beyond : scalarValue 0x110000#21 = false := by decide
theorem test_wf_accepts_all : Instr.capacity.wf = true ∧ Instr.encode.wf = true ∧ Instr.decode.wf = true ∧
    Instr.detect.wf = true := by decide
theorem test_memory_wf_refuses_unsorted : ¬ Memory.wf [((1 : Nat), (0 : Byte)), (0, 0)] := by decide

/-! ### Decoding: words written out from 30_encoding.md R90, R91 -/

theorem test_decode_capacity : (decodeWord 0b00000000000000000000000000000001#32).toOption = some .capacity := by decide
theorem test_decode_encode : (decodeWord 0b00000000000000000000000000000010#32).toOption = some .encode := by decide
theorem test_decode_decode : (decodeWord 0b00000000000000000000000000000011#32).toOption = some .decode := by decide
theorem test_decode_detect : (decodeWord 0b00000000000000000000000000000100#32).toOption = some .detect := by decide
/-- OP = 0 and OP = 15 are reserved (R92). -/
theorem test_decode_reserved : decodeWord 0#32 = .error .reservedOp ∧ decodeWord 15#32 = .error .reservedOp := ⟨rfl, rfl⟩
/-- OP = 1 under a set bit of ZERO: bit 4 (program P3) and bit 31. -/
theorem test_decode_zero_field :
    decodeWord 0x00000011#32 = .error .zeroFieldSet ∧ decodeWord 0x80000001#32 = .error .zeroFieldSet := ⟨rfl, rfl⟩

/-! ### One step of each command (expected values from 95_test_vectors.md) -/

/-- K5, S2: 2 by 2 gives 12 bits and 1 byte, STATUS 0x02. -/
theorem test_capacity_two_by_two :
    let t := nextOf (step ((withImage 2 2 []).withFetchWord 32 1))
    t.results.capBits = 12 ∧ t.results.capBytes = 1 ∧ (readRegister t 1).toNat = 0x02 := by decide +kernel

/-- K13: the largest image. -/
theorem test_capacity_largest :
    let t := nextOf (step ((withImage 65535 65535 []).withFetchWord 32 1))
    t.results.capBits = 12884508675 ∧ t.results.capBytes = 1610563584 := by decide +kernel

/-- E1: 30 white pixels, empty name and payload; the last pixel ends in two padding slots. -/
def vectorE1 : State := withImage 6 5 (List.replicate 30 ⟨0xFF, 0xFF, 0xFF⟩)

theorem test_encode_padding_slots :
    let t := nextOf (step (vectorE1.withFetchWord 32 2))
    t.pixOut = cellBlock 0 ((([2, 4, 6, 5, 2, 1, 0, 5, 2, 1, 6, 3, 0, 4] ++ List.replicate 16 0).map fun k =>
      (⟨BitVec.ofNat 8 (0xFE + k / 4), BitVec.ofNat 8 (0xFE + k / 2 % 2), BitVec.ofNat 8 (0xFE + k % 2)⟩ : Pixel))) ∧
    t.results.usedBits = 88 ∧ t.results.utilDen = 90 ∧ (readRegister t 1).toNat = 0x02 := by decide +kernel

/-- E3: one payload byte too many; no cell is needed. -/
def vectorE3 : State := { withImage 6 5 [] with payLen := 1 }

theorem test_encode_capacity_exceeded :
    let t := nextOf (step (vectorE3.withFetchWord 32 2))
    (readRegister t 1).toNat = 0x12 ∧ t.results.neededBits = 96 ∧ t.results.capBits = 90 ∧ t.results.usedBits = 0 ∧
      t.pixOut = [] := by decide +kernel

/-- D6: an ill-formed name, one payload byte 7E, one spare slot. -/
def vectorD6 : State := withImage 43 1 (ofTriples
  [2, 4, 6, 5, 2, 1, 0, 5, 2, 1, 6, 3, 0, 4, 0, 0, 0, 1, 0, 0, 0, 0, 0, 0, 0, 0, 0, 0, 0, 5, 4, 1, 7, 7, 7, 6, 1, 2, 0, 2,
    3, 7, 5])

theorem test_decode_lossy_name :
    let t := nextOf (step (vectorD6.withFetchWord 32 3))
    (readRegister t 1).toNat = 0x02 ∧ t.results.hdrBits = 120 ∧ t.nameOut = cellBlock 0 [0x61, 0xFF, 0xE2, 0x82] ∧
      t.fnameOut = cellBlock 0 [0x61, 0xFFFD, 0xFFFD] ∧ t.payOut = [(0, 0x7E)] := by decide +kernel

/-- D5: magic, N = 0, P = 1 in 90 slots: InsufficientData. -/
def triplesD5 : List Nat := [2, 4, 6, 5, 2, 1, 0, 5, 2, 1, 6, 3, 0, 4] ++ List.replicate 15 0 ++ [4]
def vectorD5 : State := withImage 6 5 (ofTriples triplesD5)

theorem test_decode_insufficient :
    let t := nextOf (step (vectorD5.withFetchWord 32 3))
    (readRegister t 1).toNat = 0x52 ∧ t.results = Results.cleared ∧ t.payOut = [] := by decide +kernel

/-- T10: 3 by 2. -/
def vectorT10 : State := withImage 3 2 (ofTriples [0, 4, 6, 3, 3, 7])

theorem test_detect_three_by_two :
    let t := nextOf (step (vectorT10.withFetchWord 32 4))
    t.results.ones = 10 ∧ t.results.zeros = 8 ∧ t.results.balE4 = 5556 ∧ t.results.flipE4 = 2500 ∧
      t.results.scoreNum = 792 ∧ t.results.scoreDen = 1080 := by decide +kernel

/-- T11: 3/96 is an exact tie at the fourth decimal. -/
theorem test_detect_tie :
    let t := nextOf (step ((withImage 8 4 (ofTriples (7 :: List.replicate 31 0))).withFetchWord 32 4))
    t.results.balE4 = 312 ∧ t.results.flipE4 = 357 ∧ t.results.scoreNum = 2664 ∧ t.results.scoreDen = 40320 := by
  decide +kernel

/-! ### Witnesses: states and operands that meet the hypotheses of each statement -/

theorem witness_ResetFromAnyState :
    ∃ (s : State) (rest : List HostAction), s.phase = .busy ∧ s.host.queue = .reset :: rest :=
  ⟨withQueue [.reset] busyState, [], rfl, rfl⟩

/-- Each clause, at the greatest value of its register. -/
theorem witness_OperandRegisterWrites : State.reset.phase ≠ .busy ∧
    (∃ s : State, s.phase ≠ .busy ∧ s.host.queue = [.writeReg 2 0xFFFF#16]) ∧
    (∃ s : State, s.phase ≠ .busy ∧ s.host.queue = [.writeReg 3 0xFFFF#16]) ∧
    (∃ s : State, s.phase ≠ .busy ∧ s.host.queue = [.writeReg 4 0xFFFFFFFF#32]) ∧
    ∃ s : State, s.phase ≠ .busy ∧ s.host.queue = [.writeReg 5 0xFFFFFFFF#32] :=
  ⟨by decide, ⟨withQueue [.writeReg 2 0xFFFF#16] State.reset, by decide, rfl⟩,
    ⟨withQueue [.writeReg 3 0xFFFF#16] State.reset, by decide, rfl⟩,
    ⟨withQueue [.writeReg 4 0xFFFFFFFF#32] State.reset, by decide, rfl⟩,
    withQueue [.writeReg 5 0xFFFFFFFF#32] State.reset, by decide, rfl⟩

/-- STATUS (1), the first result register (6) and the first number outside the table (25). -/
theorem witness_ReadOnlyWritesIgnored :
    (∃ s : State, s.phase ≠ .busy ∧ s.host.queue = [.writeReg 1 2#32]) ∧
    (∃ s : State, s.phase ≠ .busy ∧ s.host.queue = [.writeReg 6 7#16]) ∧
    ∃ s : State, s.phase ≠ .busy ∧ s.host.queue = [.writeReg 25 7#128] :=
  ⟨⟨withQueue [.writeReg 1 2#32] State.reset, by decide, rfl⟩,
    ⟨withQueue [.writeReg 6 7#16] State.reset, by decide, rfl⟩,
    withQueue [.writeReg 25 7#128] State.reset, by decide, rfl⟩

theorem witness_RegisterReads : (∃ s : State, s.phase ≠ .busy ∧ s.host.queue = [.readReg 24]) ∧ 24 < 25 :=
  ⟨⟨withQueue [.readReg 24] State.reset, by decide, rfl⟩, by decide⟩

/-- The allowed read and a refused one. -/
theorem witness_BusyAllowsStatusReadOnly :
    (∃ s : State, s.phase = .busy ∧ s.host.queue = [.readReg 1] ∧ HostAction.readReg 1 ≠ .reset) ∧
    ∃ s : State, s.phase = .busy ∧ s.host.queue = [.readReg 0] ∧ HostAction.readReg 0 ≠ .reset :=
  ⟨⟨withQueue [.readReg 1] busyState, rfl, rfl, by decide⟩, withQueue [.readReg 0] busyState, rfl, rfl, by decide⟩

/-- PIX_IN up to the very last cell of the default instance; PAY_IN and NAME_IN at index 0. -/
theorem witness_InputCellWrites :
    (∃ (s : State) (a : Nat) (vs : List Pixel), s.phase ≠ .busy ∧ a + vs.length = s.cfg.maxPixels ∧ vs ≠ [] ∧
      s.host.queue = [.writePixIn a vs]) ∧
    (∃ s : State, s.phase ≠ .busy ∧ s.host.queue = [.writePayIn 0 [0xA5#8]]) ∧
    ∃ s : State, s.phase ≠ .busy ∧ s.host.queue = [.writeNameIn 0 [0x61#8]] :=
  ⟨⟨withQueue [.writePixIn (65535 * 65535 - 1) [⟨1, 2, 3⟩]] State.reset, 65535 * 65535 - 1, [⟨1, 2, 3⟩],
      by decide, by decide, by decide, rfl⟩,
    ⟨withQueue [.writePayIn 0 [0xA5#8]] State.reset, by decide, rfl⟩,
    withQueue [.writeNameIn 0 [0x61#8]] State.reset, by decide, rfl⟩

/-- A state whose spaces each hold one cell, with a value of its own. -/
def oneCellEach : State :=
  { State.reset with
    pixIn := [(1, ⟨1, 0, 0⟩)], pixOut := [(1, ⟨2, 0, 0⟩)], payIn := [(1, 3)], nameIn := [(1, 4)], payOut := [(1, 5)]
    nameOut := [(1, 6)], fnameOut := [(1, 7)] }

/-- Each space, with a cell without value and one that holds a value; a pixel range that ends at the last cell. -/
theorem witness_SpaceReads :
    (∀ sp : Space, (withQueue [.readSpace sp 0 2] oneCellEach).phase ≠ .busy ∧
      (withQueue [.readSpace sp 0 2] oneCellEach).host.queue = [.readSpace sp 0 2]) ∧
    0 + 2 ≤ oneCellEach.cfg.maxPixels ∧ 65535 * 65535 - 2 + 2 ≤ oneCellEach.cfg.maxPixels ∧
    readCell oneCellEach.pixIn (0 + 1) = some ⟨1, 0, 0⟩ ∧ readCell oneCellEach.pixOut (0 + 1) = some ⟨2, 0, 0⟩ ∧
    readCell oneCellEach.payIn (0 + 1) = some 3 ∧ readCell oneCellEach.nameIn (0 + 1) = some 4 ∧
    readCell oneCellEach.payOut (0 + 1) = some 5 ∧ readCell oneCellEach.nameOut (0 + 1) = some 6 ∧
    readCell oneCellEach.fnameOut (0 + 1) = some 7 :=
  ⟨fun _ => ⟨(by decide : oneCellEach.phase ≠ .busy), rfl⟩, by decide +kernel⟩

/-- A filename byte and a payload byte are read from their own spaces. -/
theorem test_read_output_bytes :
    (nextOf (step (withQueue [.readSpace .payOut 1 1] oneCellEach))).host.response = some (.bytes [5]) ∧
    (nextOf (step (withQueue [.readSpace .nameOut 1 1] oneCellEach))).host.response = some (.bytes [6]) := by decide +kernel

/-- A register read and a range read, each twice in the queue, and a command that ends. -/
theorem witness_ReadsHaveNoSideEffect :
    (∃ s t : State, s.host.queue = [.readReg 8, .readReg 8] ∧ step s = .next t ∧ t.host.queue = [.readReg 8]) ∧
    (∃ s t : State, s.host.queue = [.readSpace .payIn 0 1, .readSpace .payIn 0 1] ∧ step s = .next t ∧
      t.host.queue = [.readSpace .payIn 0 1]) ∧
    ∃ s t : State, exec .encode s = .next t :=
  ⟨⟨withQueue [.readReg 8, .readReg 8] State.reset, _, rfl, rfl, rfl⟩,
    ⟨withQueue [.readSpace .payIn 0 1, .readSpace .payIn 0 1] State.reset, _, rfl, rfl, rfl⟩,
    vectorE1, _, eq_next_of_isNext (by decide +kernel)⟩

theorem witness_IdleKeepsState : ∃ s : State, s.host.queue = [] := ⟨State.reset, rfl⟩

theorem witness_DecodeEncodeAgree : ∃ i : Instr, i.wf = true := ⟨.detect, rfl⟩

theorem witness_StepRunsDecodedCommand :
    ∃ s : State, s.host.queue = [.writeReg 0 4#32] ∧ decodeWord 4#32 = .ok .detect :=
  ⟨withQueue [.writeReg 0 4#32] State.reset, rfl, rfl⟩

/-- The two words beside the legal range. -/
theorem witness_IllegalWordEndsWithError :
    (∃ s : State, s.phase ≠ .busy ∧ s.host.queue = [.writeReg 0 0#32] ∧ ¬(1 ≤ (0#32).toNat ∧ (0#32).toNat ≤ 4)) ∧
    ∃ s : State, s.phase ≠ .busy ∧ s.host.queue = [.writeReg 0 5#32] ∧ ¬(1 ≤ (5#32).toNat ∧ (5#32).toNat ≤ 4) :=
  ⟨⟨withQueue [.writeReg 0 0#32] State.reset, by decide, rfl, by decide⟩,
    withQueue [.writeReg 0 5#32] State.reset, by decide, rfl, by decide⟩

theorem witness_CommandWhileBusyRefused : busyState.phase = .busy := rfl

theorem witness_CapacityCommand : (withImage 65535 65535 []).phase ≠ .busy := by decide

theorem witness_CapacityRegistersExact : (withImage 65535 65535 []).phase ≠ .busy := by decide

theorem witness_EncodeKeepsCapacity : ∃ t, exec .encode vectorE1 = .next t :=
  ⟨_, eq_next_of_isNext (by decide +kernel)⟩

/-- One byte too many (E3). -/
theorem witness_EncodeCapacityExceeded : vectorE3.mayRun ∧
    3 * vectorE3.width.toNat * vectorE3.height.toNat <
      8 * (11 + min vectorE3.nameLen.toNat 65535 + vectorE3.payLen.toNat) :=
  ⟨⟨by decide +kernel, by decide +kernel⟩, by decide +kernel⟩

/-- Vector E6: 9 by 4, name "a", payload 5A; pixel 35 lies beyond the frame. -/
def vectorE6 : State := withFrame [0x5A] [0x61] (withImage 9 4 (List.replicate 36 ⟨0xFF, 0xFF, 0xFF⟩))

/-- The state after ENCODE on E6, and that state with the output image copied to PIX_IN. -/
def encodedE6 : State := nextOf (exec .encode vectorE6)
def copiedE6 : State := { encodedE6 with pixIn := encodedE6.pixOut }

theorem encodedE6_next : exec .encode vectorE6 = .next encodedE6 := eq_next_of_isNext (by decide +kernel)

theorem witness_EncodeSucceeds : vectorE6.mayRun ∧
    8 * (11 + min vectorE6.nameLen.toNat 65535 + vectorE6.payLen.toNat) ≤
      3 * vectorE6.width.toNat * vectorE6.height.toNat ∧
    readCells vectorE6.nameIn 0 (min vectorE6.nameLen.toNat 65535) = some [0x61] ∧
    readCells vectorE6.payIn 0 vectorE6.payLen.toNat = some [0x5A] ∧
    readCells vectorE6.pixIn 0 (vectorE6.width.toNat * vectorE6.height.toNat) =
      some (List.replicate 36 ⟨0xFF, 0xFF, 0xFF⟩) :=
  ⟨⟨by decide, by decide +kernel⟩, by decide +kernel⟩

/-- Slot 0 (a frame bit), slot 1 (padding) and slot 3 (untouched) of two pixels under a one-bit stream. -/
theorem witness_EmbedSlots : 0 < 3 * [blackPixel, blackPixel].length ∧ 0 < [true].length ∧
    1 < 3 * pixelsWritten [true].length ∧ ¬ 1 < [true].length ∧
    3 < 3 * [blackPixel, blackPixel].length ∧ ¬ 3 < 3 * pixelsWritten [true].length := by decide

theorem witness_EmbedKeepsUpperBits : pixelsWritten [true].length ≤ 1 := by decide

theorem witness_EncodedImageHoldsFrame : exec .encode vectorE6 = .next encodedE6 ∧ encodedE6.err = .none ∧
    readCells vectorE6.nameIn 0 (min vectorE6.nameLen.toNat 65535) = some [0x61] ∧
    readCells vectorE6.payIn 0 vectorE6.payLen.toNat = some [0x5A] :=
  ⟨encodedE6_next, by decide +kernel⟩

/-- A success and a failure. -/
theorem witness_EncodeFitsByWholeBytes :
    exec .encode vectorE6 = .next encodedE6 ∧ ∃ t, exec .encode vectorE3 = .next t ∧ t.err = .capacityExceeded :=
  ⟨encodedE6_next, _, eq_next_of_isNext (by decide +kernel), by decide +kernel⟩

theorem witness_UtilizationIsExact : exec .encode vectorE6 = .next encodedE6 ∧ encodedE6.err = .none :=
  ⟨encodedE6_next, by decide +kernel⟩

theorem witness_BytesToBitsIndex : ∃ (data : List Byte) (j k : Nat), j < data.length ∧ k < 8 :=
  ⟨[0xA5], 0, 7, by decide, by decide⟩

theorem witness_BitSerializerLaws : ([] : Bitstream).length % 8 = 0 ∧ (byteBits 0x53).length % 8 = 0 := by decide

/-- 7 and 9 bits (vector B12). -/
theorem witness_NoCommandPassesRaggedBits :
    (List.replicate 7 true).length % 8 ≠ 0 ∧ (List.replicate 9 true).length % 8 ≠ 0 := by decide

/-- The greatest payload length with an empty name. -/
theorem witness_PackHeaderLayout : 2 ^ 32 - 1 < 2 ^ 32 ∧ min 0 65535 ≤ ([] : List Byte).length := by decide

theorem witness_UnpackInvertsPack : 2 < 2 ^ 32 ∧ min 1 65535 ≤ [0x61#8].length := by decide

theorem witness_LossyDecodeEmitsScalars : replacementChar ∈ utf8Lossy [0xFF] := by decide

/-- The four lengths of an encoding, at the ends of their ranges. -/
theorem witness_WellFormedUtf8Decodes :
    ∀ cp ∈ [0#21, 0x7F#21, 0x80#21, 0x7FF#21, 0x800#21, 0xD7FF#21, 0xE000#21, 0xFFFF#21, 0x10000#21, 0x10FFFF#21],
      scalarValue cp = true := List.all_eq_true.1 (by decide)

/-- A byte that starts nothing; a sequence cut short by a letter; a surrogate's first byte. -/
theorem witness_IllFormedUtf8Replaced : illFormedSubpart [0xFF] [] ∧ illFormedSubpart [0xE2, 0x82] [0x41] ∧
    illFormedSubpart [0xED] [0xA0, 0x80] := by
  refine ⟨⟨by simp, fun cp hc hp => ?_, .inl rfl, by simp⟩,
    ⟨by simp, fun cp hc hp => ?_, .inr ⟨0x20AC, by decide, by decide⟩, ?_⟩,
    ⟨by simp, fun cp hc hp => ?_, .inl rfl, ?_⟩⟩
  · simpa using utf8Encode_prefix_cases hc hp
  · simpa using utf8Encode_prefix_cases hc hp
  · rintro _ ⟨⟩ ⟨cp, hc, t, hp⟩
    simpa using utf8Encode_prefix_cases hc (hp.symm ▸ List.prefix_rfl : _ <+: [0xE2, 0x82] ++ [0x41] ++ t)
  · simpa using utf8Encode_prefix_cases hc hp
  · rintro _ ⟨⟩ ⟨cp, hc, t, hp⟩
    simpa using utf8Encode_prefix_cases hc (hp.symm ▸ List.prefix_rfl : _ <+: [0xED] ++ [0xA0] ++ t)

/-- The bytes of a surrogate begin with no encoding. -/
theorem witness_IllFormedUtf8Replaced_split : ([0xED, 0xA0, 0x80] : List Byte) ≠ [] ∧
    ∀ cp, scalarValue cp = true → ¬ utf8Encode cp <+: [0xED, 0xA0, 0x80] :=
  ⟨by decide, witness_IllFormedUtf8Replaced.2.2.2.1⟩

/-- Vector D4: magic, N = 1, P = 0 in 90 slots: CorruptHeader. -/
def triplesD4 : List Nat := [2, 4, 6, 5, 2, 1, 0, 5, 2, 1, 6, 3, 0, 4, 0, 0, 0, 0, 2] ++ List.replicate 11 0

theorem witness_DecodeFailures_image : vectorD5.mayRun ∧
    readCells vectorD5.pixIn 0 (vectorD5.width.toNat * vectorD5.height.toNat) = some (ofTriples triplesD5) :=
  ⟨⟨by decide +kernel, by decide +kernel⟩, by decide +kernel⟩

/-- One image for each clause, the first at 87 slots, the others at 90. -/
theorem witness_DecodeFailures_clauses :
    (extract (ofTriples (List.replicate 29 0))).length < 88 ∧
    (88 ≤ (extract (ofTriples (List.replicate 30 0))).length ∧
      slice (extract (ofTriples (List.replicate 30 0))) 0 40 ≠ magicBits) ∧
    (88 ≤ (extract (ofTriples triplesD4)).length ∧ slice (extract (ofTriples triplesD4)) 0 40 = magicBits ∧
      (extract (ofTriples triplesD4)).length < 8 * (11 + streamNameLen (extract (ofTriples triplesD4)))) ∧
    (88 ≤ (extract (ofTriples triplesD5)).length ∧ slice (extract (ofTriples triplesD5)) 0 40 = magicBits ∧
      8 * (11 + streamNameLen (extract (ofTriples triplesD5))) ≤ (extract (ofTriples triplesD5)).length ∧
      (extract (ofTriples triplesD5)).length <
        8 * (11 + streamNameLen (extract (ofTriples triplesD5)) + streamPayLen (extract (ofTriples triplesD5)))) := by
  decide +kernel

/-- Vector D6. -/
def imageD6 : List Pixel := vectorD6.pixIn.map Prod.snd

theorem witness_DecodeSucceeds : vectorD6.mayRun ∧
    readCells vectorD6.pixIn 0 (vectorD6.width.toNat * vectorD6.height.toNat) = some imageD6 ∧
    slice (extract imageD6) 0 40 = magicBits ∧
    8 * (11 + streamNameLen (extract imageD6) + streamPayLen (extract imageD6)) ≤ (extract imageD6).length :=
  ⟨⟨by decide, by decide +kernel⟩, by decide +kernel⟩

theorem witness_EncodeDecodeRoundTrip : exec .encode vectorE6 = .next encodedE6 ∧
    (∀ cp ∈ [0x61#21], scalarValue cp = true) ∧ encodedE6.err = .none ∧
    readCells vectorE6.nameIn 0 (min vectorE6.nameLen.toNat 65535) = some [0x61] ∧
    readCells vectorE6.payIn 0 vectorE6.payLen.toNat = some [0x5A] ∧
    copiedE6.phase ≠ .busy ∧ copiedE6.cfg = vectorE6.cfg ∧ copiedE6.width = vectorE6.width ∧
    copiedE6.height = vectorE6.height ∧
    readCells copiedE6.pixIn 0 (vectorE6.width.toNat * vectorE6.height.toNat) =
      readCells encodedE6.pixOut 0 (vectorE6.width.toNat * vectorE6.height.toNat) ∧
    vectorE6.nameLen.toNat ≤ 65535 ∧
    [0x61#8] = [0x61#21].flatMap utf8Encode :=
  ⟨encodedE6_next, List.all_eq_true.1 (by decide), by decide +kernel⟩

/-- A frame that ends at the last slot of its image (vector D8: magic, N = 0, P = 1, byte 3C in 96 slots). -/
def triplesD8 : List Nat := [2, 4, 6, 5, 2, 1, 0, 5, 2, 1, 6, 3, 0, 4] ++ List.replicate 15 0 ++ [4, 7, 4]

theorem witness_DecodeSucceeds_exact_fit :
    slice (extract (ofTriples triplesD8)) 0 40 = magicBits ∧
    8 * (11 + streamNameLen (extract (ofTriples triplesD8)) + streamPayLen (extract (ofTriples triplesD8))) =
      (extract (ofTriples triplesD8)).length := by decide +kernel

/-- Two images that differ in upper bits only, and a DECODE that ends. -/
theorem witness_DecodeReadsOnlyLsbs :
    ∃ t, exec .decode (withImage 1 1 [⟨1, 0, 0⟩]) = .next t ∧
      readCells (withImage 1 1 [⟨1, 0, 0⟩]).pixIn 0 (1 * 1) = some [⟨1, 0, 0⟩] ∧
      readCells (cellBlock 0 [(⟨3, 0, 0⟩ : Pixel)]) 0 (1 * 1) = some [⟨3, 0, 0⟩] ∧ sameLsbs [⟨1, 0, 0⟩] [⟨3, 0, 0⟩] :=
  ⟨_, eq_next_of_isNext (by decide +kernel), rfl, rfl, by unfold sameLsbs; decide⟩

theorem witness_DecodeUsesFlatIndex :
    ∃ t, exec .decode vectorD5 = .next t ∧
      (30#16).toNat * (1#16).toNat = vectorD5.width.toNat * vectorD5.height.toNat :=
  ⟨_, eq_next_of_isNext (by decide +kernel), by decide +kernel⟩

theorem witness_DetectCommand : vectorT10.mayRun ∧
    readCells vectorT10.pixIn 0 (vectorT10.width.toNat * vectorT10.height.toNat) =
      some (ofTriples [0, 4, 6, 3, 3, 7]) :=
  ⟨⟨by decide +kernel, by decide +kernel⟩, by decide +kernel⟩

theorem witness_DetectCountsSlots : ∃ t, exec .detect vectorT10 = .next t :=
  ⟨_, eq_next_of_isNext (by decide +kernel)⟩

theorem witness_FlipsAreRowPairs : (ofTriples [0, 4, 6, 3, 3, 7]).length = 3 * 2 := by decide

/-- All samples 1, and no samples. -/
theorem witness_ScoreIsExactRational : 6 ≤ 6 ∧ 0 ≤ 0 := by decide

theorem witness_ScoreRegistersExact : ∃ t, exec .detect vectorT10 = .next t :=
  ⟨_, eq_next_of_isNext (by decide +kernel)⟩

/-- A tie: 1/32 of ten thousand is 312.5. -/
theorem witness_RoundFourNearestEven : 0 < 32 ∧ 2 * absDiff (10000 * 1) (round4 1 32 * 32) = 32 ∧ 32 ≤ 32 := by decide

/-- Zero width, and zero height. -/
theorem witness_ZeroAreaScore :
    ((withImage 0 5 []).phase ≠ .busy ∧ (withImage 0 5 []).width = 0) ∧
    ((withImage 5 0 []).phase ≠ .busy ∧ (withImage 5 0 []).height = 0) := by decide

theorem witness_DetectReadsOnlyLsbs :
    ∃ t, exec .detect (withImage 1 1 [⟨1, 0, 0⟩]) = .next t ∧
      readCells (withImage 1 1 [⟨1, 0, 0⟩]).pixIn 0 (1 * 1) = some [⟨1, 0, 0⟩] ∧
      readCells (cellBlock 0 [(⟨3, 0, 0⟩ : Pixel)]) 0 (1 * 1) = some [⟨3, 0, 0⟩] ∧ sameLsbs [⟨1, 0, 0⟩] [⟨3, 0, 0⟩] :=
  ⟨_, eq_next_of_isNext (by decide +kernel), rfl, rfl, by unfold sameLsbs; decide⟩

theorem witness_SuppliedCommandsEnd_zero_area :
    State.reset.mayRun ∧ State.reset.memWf ∧ State.reset.suppliedFor .capacity ∧ State.reset.suppliedFor .encode ∧
      State.reset.suppliedFor .decode ∧ State.reset.suppliedFor .detect :=
  ⟨⟨by decide, by decide⟩, by unfold State.memWf; decide, trivial, .inl (by decide),
    fun a h => absurd h (by unfold pixelCount; simp [opWidth, opHeight, State.reset]),
    fun a h => absurd h (by unfold pixelCount; simp [opWidth, opHeight, State.reset])⟩

theorem vectorE6_memWf : vectorE6.memWf := by unfold State.memWf; decide +kernel

theorem vectorE6_image : cellsHeld vectorE6.pixIn (pixelCount vectorE6) := by unfold cellsHeld; decide +kernel

/-- ENCODE with its cells supplied (E6), DECODE and DETECT likewise. -/
theorem witness_SuppliedCommandsEnd :
    vectorE6.mayRun ∧ vectorE6.memWf ∧ vectorE6.suppliedFor .encode ∧ vectorE6.suppliedFor .decode ∧
      vectorE6.suppliedFor .detect :=
  ⟨⟨by decide, by decide +kernel⟩, vectorE6_memWf,
    .inr ⟨vectorE6_image, by unfold cellsHeld; decide +kernel⟩, vectorE6_image, vectorE6_image⟩

/-- An image of one pixel whose cell holds no value. -/
def noCell : State := withImage 1 1 []

/-- A 6 by 6 image with a payload byte and no cell of PAY_IN. -/
def noPayload : State := { withImage 6 6 (List.replicate 36 blackPixel) with payLen := 1 }

theorem noCell_memWf : noCell.memWf := by unfold State.memWf; decide

/-- A missing cell of the image and of the payload, and an image beyond a small MAX_PIXELS. -/
theorem witness_CommandsStopExactlyForMissingCells :
    (noCell.phase ≠ .busy ∧ noCell.memWf ∧ exec .detect noCell = .refused (.cellHoldsNoValue .pixIn) ∧
      pixelCount noCell ≤ noCell.cfg.maxPixels ∧ ¬ noCell.suppliedFor .detect) ∧
    (noPayload.phase ≠ .busy ∧ noPayload.memWf ∧ exec .encode noPayload = .refused (.cellHoldsNoValue .payIn) ∧
      pixelCount noPayload ≤ noPayload.cfg.maxPixels ∧ ¬ noPayload.suppliedFor .encode) ∧
    ∃ s : State, s.phase ≠ .busy ∧ s.memWf ∧ s.cfg.maxPixels < pixelCount s ∧ Instr.detect ≠ .capacity ∧
      exec .detect s = .refused .imageBeyondMaxPixels :=
  ⟨⟨by decide, noCell_memWf, rfl, by decide +kernel, fun h => absurd (h 0 (by decide)) (by decide)⟩,
    ⟨by decide, by unfold State.memWf; decide +kernel, rfl, by decide +kernel,
      fun h => h.elim (by decide +kernel) fun h => absurd (h.2.1 0 (by decide)) (by decide)⟩,
    { noCell with cfg := ⟨0⟩ }, by decide, noCell_memWf, by decide, by decide, rfl⟩

theorem witness_CommandErrorCodes :
    (∃ t, exec .capacity State.reset = .next t) ∧ (∃ t, exec .encode State.reset = .next t) ∧
    (∃ t, exec .decode State.reset = .next t) ∧ (∃ t, exec .detect State.reset = .next t) ∧
    ∃ s t : State, s.host.queue = [.writeReg 0 5#32] ∧ step s = .next t ∧ ¬(1 ≤ (5#32).toNat ∧ (5#32).toNat ≤ 4) :=
  ⟨⟨_, rfl⟩, ⟨_, eq_next_of_isNext (by decide)⟩, ⟨_, eq_next_of_isNext (by decide)⟩,
    ⟨_, eq_next_of_isNext (by decide)⟩, withQueue [.writeReg 0 5#32] State.reset, _, rfl, rfl, by decide⟩

/-- CapacityExceeded, another error of a command, and an illegal word. -/
theorem witness_ErrorsArePrecise :
    (∃ s t : State, s.host.queue = [.writeReg 0 2#32] ∧ step s = .next t ∧ t.err = .capacityExceeded) ∧
    (∃ s t : State, s.host.queue = [.writeReg 0 3#32] ∧ step s = .next t ∧ t.err = .insufficientData) ∧
    ∃ s t : State, s.host.queue = [.writeReg 0 5#32] ∧ step s = .next t ∧ t.err = .illegalCommand :=
  ⟨⟨withQueue [.writeReg 0 2#32] vectorE3, _, rfl, eq_next_of_isNext (by decide +kernel), by decide +kernel⟩,
    ⟨withQueue [.writeReg 0 3#32] vectorD5, _, rfl, eq_next_of_isNext (by decide +kernel), by decide +kernel⟩,
    withQueue [.writeReg 0 5#32] State.reset, _, rfl, rfl, rfl⟩

theorem encodedE6_memWf : encodedE6.memWf := by unfold State.memWf; decide +kernel

/-- Two states that differ in what an earlier ENCODE left, for each family. -/
theorem witness_CommandsAreStateless :
    exec .encode vectorE6 = .next encodedE6 ∧ vectorE6.memWf ∧ encodedE6.memWf ∧
    (∃ t, exec .decode vectorD6 = .next t ∧ t.err = .none) ∧
    encodedE6.err = .none ∧ encodedE6.phase ≠ .busy ∧ vectorE6.phase ≠ .busy ∧ encodedE6.cfg = vectorE6.cfg ∧
      encodedE6.width = vectorE6.width ∧ encodedE6.height = vectorE6.height ∧
      encodedE6.payLen = vectorE6.payLen ∧ encodedE6.nameLen = vectorE6.nameLen ∧
      encodedE6.pixIn = vectorE6.pixIn ∧ encodedE6.payIn = vectorE6.payIn ∧ encodedE6.nameIn = vectorE6.nameIn ∧
      encodedE6.results ≠ vectorE6.results :=
  ⟨encodedE6_next, vectorE6_memWf, encodedE6_memWf, ⟨_, eq_next_of_isNext (by decide +kernel), by decide +kernel⟩,
    by decide +kernel⟩

theorem witness_CommandFrames :
    exec .encode vectorE6 = .next encodedE6 ∧ (∃ t, exec .capacity vectorE6 = .next t) ∧
      (∃ t, exec .decode vectorD6 = .next t) ∧ ∃ t, exec .detect vectorT10 = .next t :=
  ⟨encodedE6_next, ⟨_, rfl⟩, ⟨_, eq_next_of_isNext (by decide +kernel)⟩, _, eq_next_of_isNext (by decide +kernel)⟩

/-- By a reset from DONE, and by a register write in IDLE. -/
theorem witness_OnlyResetReachesIdle :
    (∃ s t : State, s.phase = .done ∧ step s = .next t ∧ t.phase = .idle) ∧
    ∃ s t : State, s.phase = .idle ∧ step s = .next t ∧ t.phase = .idle :=
  ⟨⟨withQueue [.reset] { State.reset with phase := .done }, _, rfl, rfl, rfl⟩, State.reset, _, rfl, rfl, rfl⟩

/-- The first step after reset of an image write; the reset state meets the invariant. -/
theorem reset_inv : State.reset.Inv where
  memWf := by unfold State.memWf; decide
  notBusy := by decide
  idleClean := fun _ => ⟨rfl, rfl, rfl, rfl, rfl, rfl, rfl⟩
  doneErr := fun h => by cases h
  utilDenPos := by decide
  scoreFraction := by decide
  detailsRange := by decide
  fnameLen := by decide
  fnameScalars := fun c hc => by cases hc
  pixelsExist := fun a h => by simp [State.reset] at h

theorem witness_StepKeepsInvariant : State.reset.Inv ∧ ∃ t, step State.reset = .next t := ⟨reset_inv, _, rfl⟩

/-- A write and a read one cell too far. -/
theorem witness_FaultsOnlyBeyondMaxPixels :
    (∃ s t : State, step s = .next t) ∧
    (∃ s : State, s.host.queue = [.writePixIn 0 [⟨0, 0, 0⟩]] ∧ step s = .fault .noSuchPixelCell) ∧
    ∃ s : State, s.host.queue = [.readSpace .pixOut 0 1] ∧ step s = .fault .noSuchPixelCell :=
  ⟨⟨State.reset, _, rfl⟩,
    ⟨withQueue [.writePixIn 0 [⟨0, 0, 0⟩]] { State.reset with cfg := ⟨0⟩ }, rfl, rfl⟩,
    withQueue [.readSpace .pixOut 0 1] { State.reset with cfg := ⟨0⟩ }, rfl, rfl⟩

end Sys2Proof.Tests
end

section
/-! PROOF. Family 00_scope.md: the configuration is fixed, and what a fault of a step says about the host's action. -/

namespace Sys2Proof.Machine

/-! ### No operation changes the configuration -/

@[simp] theorem writeRegister_cfg (s : State) (n : Nat) (v : BitVec (regWidth n)) :
    (writeRegister s n v).cfg = s.cfg := by
  obtain ⟨_, h⟩ | ⟨_, h⟩ | ⟨_, h⟩ | ⟨_, h⟩ | h := writeRegister_cases s n v <;> rw [h]

theorem exec_next_cfg {i : Instr} {s t : State} (h : exec i s = .next t) : t.cfg = s.cfg := by
  cases i with
  | capacity =>
    obtain ⟨_, ht⟩ := execCapacity_next.1 h
    cases ht
    rfl
  | encode =>
    obtain ⟨_, _, ⟨_, rfl⟩ | ⟨_, _, _, _, _, _, _, rfl⟩⟩ := execEncode_next.1 h
    · simp
    · simp
  | decode =>
    obtain ⟨_, _, _, _, ⟨_, _, rfl⟩ | ⟨_, _, _, rfl⟩ | ⟨_, _, _, _, _, _, rfl⟩⟩ := execDecode_next.1 h
    · simp
    · simp
    · simp
  | detect =>
    obtain ⟨_, _, _, _, rfl⟩ := execDetect_next.1 h
    simp

theorem illegalCommand_next_cfg {c : BitVec 32} {s t : State} (h : illegalCommand c s = .next t) : t.cfg = s.cfg := by
  obtain ⟨_, ht⟩ := runCommand_next.1 h
  cases ht
  rfl

/-- An access to cells goes on to the state it was given. -/
theorem onCells_next_cfg {s t u : State} {sp : Space} {a n : Nat} (h : onCells s sp a n u = .next t)
    (hu : u.cfg = s.cfg) : t.cfg = s.cfg := by
  obtain ⟨_, _, rfl⟩ := onCells_next.1 h
  exact hu

/-- A read of a register is answered, or it came while BUSY (60_exceptions.md R245). -/
theorem hostAct_readReg_cases (n : Nat) (s : State) :
    hostAct (.readReg n) s = .next (respond (.reg n (readRegister s n)) s) ∨
    hostAct (.readReg n) s = .refused .accessWhileBusy := by
  simp only [hostAct, whenOwned]
  split
  · exact .inl rfl
  · split
    · exact .inr rfl
    · exact .inl rfl

theorem hostAct_next_cfg {act : HostAction} {s t : State} (h : hostAct act s = .next t) : t.cfg = s.cfg := by
  cases act with
  | writeReg n v =>
    obtain ⟨_, ht⟩ := whenOwned_next.1 h
    cases ht
    exact writeRegister_cfg s n v
  | writePixIn a vs => exact onCells_next_cfg h rfl
  | writePayIn a vs => exact onCells_next_cfg h rfl
  | writeNameIn a vs => exact onCells_next_cfg h rfl
  | readReg n =>
    obtain hr | hr := hostAct_readReg_cases n s
    · cases hr.symm.trans h
      exact respond_cfg _ s
    · cases hr.symm.trans h
  | readSpace sp a n => exact onCells_next_cfg h (respond_cfg _ s)
  | reset =>
    cases h
    exact resetBlock_cfg s

/-- MAX_PIXELS never changes (00_scope.md R7). -/
theorem step_next_cfg {s t : State} (h : step s = .next t) : t.cfg = s.cfg := by
  obtain ⟨_, rfl⟩ | ⟨_, _, _, _, _, ht⟩ | ⟨_, _, _, _, _, ht⟩ | ⟨_, _, _, _, ht⟩ := step_next h
  · rfl
  · exact (exec_next_cfg ht).trans (dropAction_cfg s)
  · exact (illegalCommand_next_cfg ht).trans (dropAction_cfg s)
  · exact (hostAct_next_cfg ht).trans (dropAction_cfg s)

/-! ### No command faults -/

theorem runCommand_fault {c : BitVec 32} {rule : State → Out} {s : State} {f : Fault} :
    runCommand c rule s = .fault f ↔ s.phase ≠ .busy ∧ rule (startCommand c s) = .fault f := by
  unfold runCommand
  split <;> simp_all

theorem withinMaxPixels_fault {rule : State → Out} {s : State} {f : Fault} :
    withinMaxPixels rule s = .fault f ↔ pixelCount s ≤ s.cfg.maxPixels ∧ rule s = .fault f := by
  unfold withinMaxPixels
  split
  next h => simp [Nat.not_le_of_lt h]
  next h => simp [Nat.le_of_not_lt h]

/-- Every early stop of a rule is an error of the block or a refusal. -/
theorem finishCommand_ne_fault (a : State) (x : Except Stop State) (f : Fault) : finishCommand a x ≠ .fault f := by
  unfold finishCommand
  split <;> simp

/-- A command that reads pixels does not fault, as its rule ends in `finishCommand`. -/
theorem runCommand_pixels_ne_fault (c : BitVec 32) (atRaise : State → State) (body : State → Except Stop State)
    (s : State) (f : Fault) :
    runCommand c (withinMaxPixels fun u => finishCommand (atRaise u) (body u)) s ≠ .fault f := by
  intro h
  obtain ⟨_, h⟩ := runCommand_fault.1 h
  obtain ⟨_, h⟩ := withinMaxPixels_fault.1 h
  exact finishCommand_ne_fault _ _ _ h

theorem exec_ne_fault (i : Instr) (s : State) (f : Fault) : exec i s ≠ .fault f := by
  cases i with
  | capacity =>
    intro h
    obtain ⟨_, hrule⟩ := runCommand_fault.1 h
    cases hrule
  | encode => exact runCommand_pixels_ne_fault _ encodeReport (fun u => encodeBody (encodeReport u)) s f
  | decode => exact runCommand_pixels_ne_fault _ id decodeBody s f
  | detect => exact runCommand_pixels_ne_fault _ id detectBody s f

theorem illegalCommand_ne_fault (c : BitVec 32) (s : State) (f : Fault) : illegalCommand c s ≠ .fault f := by
  intro h
  obtain ⟨_, hrule⟩ := runCommand_fault.1 h
  cases hrule

/-! ### The faults of the host port -/

theorem whenOwned_fault {s : State} {o : Out} {f : Fault} :
    whenOwned s o = .fault f ↔ s.phase ≠ .busy ∧ o = .fault f := by
  unfold whenOwned
  split <;> simp_all

/-- Cells are missing only in the two pixel spaces, at or beyond MAX_PIXELS. -/
theorem cellsExist_eq_false {cfg : Config} {sp : Space} {a n : Nat} (h : cellsExist cfg sp a n = false) :
    (sp = .pixIn ∨ sp = .pixOut) ∧ cfg.maxPixels < a + n := by
  cases sp <;> simp_all [cellsExist]

theorem onCells_fault {s u : State} {sp : Space} {a n : Nat} {f : Fault} (h : onCells s sp a n u = .fault f) :
    (sp = .pixIn ∨ sp = .pixOut) ∧ s.cfg.maxPixels < a + n := by
  obtain ⟨_, h⟩ := whenOwned_fault.1 h
  split at h
  · cases h
  next hmissing => exact cellsExist_eq_false (Bool.eq_false_iff.2 hmissing)

/-- An action of the host that faults names pixel cells beyond MAX_PIXELS. -/
theorem hostAct_fault {act : HostAction} {s : State} {f : Fault} (h : hostAct act s = .fault f) :
    (∃ a vs, act = .writePixIn a vs ∧ s.cfg.maxPixels < a + vs.length) ∨
    ∃ sp a n, act = .readSpace sp a n ∧ (sp = .pixIn ∨ sp = .pixOut) ∧ s.cfg.maxPixels < a + n := by
  cases act with
  | writeReg n v =>
    obtain ⟨_, ho⟩ := whenOwned_fault.1 h
    cases ho
  | writePixIn a vs =>
    obtain ⟨_, hbeyond⟩ := onCells_fault h
    exact .inl ⟨a, vs, rfl, hbeyond⟩
  | writePayIn a vs =>
    obtain ⟨hsp, _⟩ := onCells_fault h
    simp at hsp
  | writeNameIn a vs =>
    obtain ⟨hsp, _⟩ := onCells_fault h
    simp at hsp
  | readReg n =>
    obtain hr | hr := hostAct_readReg_cases n s
    · cases hr.symm.trans h
    · cases hr.symm.trans h
  | readSpace sp a n =>
    obtain ⟨hsp, hbeyond⟩ := onCells_fault h
    exact .inr ⟨sp, a, n, rfl, hsp, hbeyond⟩
  | reset => cases h

/-- The one way a step faults: the host's next action does, and it is no write of CMD. -/
theorem step_fault {s : State} {f : Fault} (h : step s = .fault f) :
    ∃ act rest, s.host.queue = act :: rest ∧ (∀ c, act ≠ .writeReg 0 c) ∧ hostAct act (dropAction s) = .fault f := by
  cases hq : s.host.queue with
  | nil => simp [step, nextCommand, hostStep, hq] at h
  | cons act rest =>
    by_cases hc : ∃ c, act = .writeReg 0 c
    · obtain ⟨c, rfl⟩ := hc
      cases hd : decodeWord c with
      | ok i =>
        rw [step_command hq hd] at h
        exact absurd h (exec_ne_fault i _ f)
      | error e =>
        rw [step_illegal hq hd] at h
        exact absurd h (illegalCommand_ne_fault c _ f)
    · have hc' : ∀ c, act ≠ .writeReg 0 c := not_exists.1 hc
      rw [step_hostAct hq hc'] at h
      exact ⟨act, rest, rfl, hc', h⟩

/-- Settles O59: each way a step answers a next state keeps the configuration, and the one way it faults is an action
of the host on pixel cells that do not exist. -/
theorem faultsOnlyBeyondMaxPixels : Obligations.FaultsOnlyBeyondMaxPixels := by
  refine ⟨fun s t h => step_next_cfg h, fun s f h => ?_⟩
  obtain ⟨act, rest, hq, _, hact⟩ := step_fault h
  have hbeyond := hostAct_fault hact
  rw [dropAction_cfg] at hbeyond
  exact ⟨act, rest, hq, hbeyond⟩

end Sys2Proof.Machine
end

section
/-! PROOF. Family 10_state.md: the invariant of the machine, the host port's reads and writes, and what a command
reads, writes and leaves. -/

namespace Sys2Proof.Machine

/-! ### utf8_lossy emits scalar values -/

/-- Each continuation byte taken shifts the code point by 6 bits; the first one's range bounds what is added. -/
theorem utf8Continue_bounds {n lo hi cp cp' : Nat} {bs rest : List Byte} (hlo : 0x80 ≤ lo) (hhi : hi ≤ 0xBF)
    (h : utf8Continue (n + 1) lo hi cp bs = (cp', true, rest)) :
    (cp * 64 + (lo - 0x80)) * 64 ^ n ≤ cp' ∧ cp' < (cp * 64 + (hi - 0x80) + 1) * 64 ^ n := by
  induction n generalizing lo hi cp bs with
  | zero =>
    cases bs with
    | nil => simp [utf8Continue] at h
    | cons c bs =>
      simp only [utf8Continue] at h
      split at h
      · simp at h
      · simp only [Prod.mk.injEq, true_and] at h
        omega
  | succ n ih =>
    cases bs with
    | nil => simp [utf8Continue] at h
    | cons c bs =>
      rw [utf8Continue] at h
      split at h
      · simp at h
      · obtain ⟨hmin, hmax⟩ := ih (by omega) (by omega) h
        rw [pow_succ']
        constructor
        · calc (cp * 64 + (lo - 0x80)) * (64 * 64 ^ n)
              = ((cp * 64 + (lo - 0x80)) * 64) * 64 ^ n := by ring
            _ ≤ ((cp * 64 + c.toNat % 64) * 64 + (0x80 - 0x80)) * 64 ^ n := Nat.mul_le_mul_right _ (by omega)
            _ ≤ cp' := hmin
        · calc cp' < ((cp * 64 + c.toNat % 64) * 64 + (0xBF - 0x80) + 1) * 64 ^ n := hmax
            _ ≤ ((cp * 64 + (hi - 0x80) + 1) * 64) * 64 ^ n := Nat.mul_le_mul_right _ (by omega)
            _ = (cp * 64 + (hi - 0x80) + 1) * (64 * 64 ^ n) := by ring

/-- Each row of the lead-byte table of R141 keeps its sequences below the surrogates, or above them and at most
0x10FFFF. -/
theorem utf8Lead_multi_range {b0 need lo hi cp : Nat} (h : utf8Lead b0 = .multi need lo hi cp) :
    ∃ n, need = n + 1 ∧ 0x80 ≤ lo ∧ hi ≤ 0xBF ∧ ((cp * 64 + (hi - 0x80) + 1) * 64 ^ n ≤ 0xD800 ∨
      0xE000 ≤ (cp * 64 + (lo - 0x80)) * 64 ^ n ∧ (cp * 64 + (hi - 0x80) + 1) * 64 ^ n ≤ 0x110000) := by
  unfold utf8Lead at h
  split_ifs at h <;> cases h <;> exact ⟨_, rfl, by omega⟩

theorem scalarValue_ofNat {v : Nat} (h : v < 0xD800 ∨ 0xE000 ≤ v ∧ v < 0x110000) :
    scalarValue (BitVec.ofNat 21 v) = true := by
  simp [scalarValue]
  omega

theorem utf8Continue_scalar {b0 need lo hi cp cp' : Nat} {bs rest : List Byte}
    (hlead : utf8Lead b0 = .multi need lo hi cp) (h : utf8Continue need lo hi cp bs = (cp', true, rest)) :
    scalarValue (BitVec.ofNat 21 cp') = true := by
  obtain ⟨n, rfl, hlo, hhi, hrange⟩ := utf8Lead_multi_range hlead
  have hb := utf8Continue_bounds hlo hhi h
  exact scalarValue_ofNat (by omega)

theorem utf8Loop_scalars (fuel : Nat) (bs : List Byte) : ∀ cp ∈ utf8Loop fuel bs, scalarValue cp = true := by
  have hrep : scalarValue replacementChar = true := by decide
  induction fuel generalizing bs with
  | zero => simp [utf8Loop]
  | succ fuel ih =>
    cases bs with
    | nil => simp [utf8Loop]
    | cons b0 bs =>
      rw [utf8Loop]
      split
      next => exact List.forall_mem_cons.2 ⟨scalarValue_ofNat (by omega), ih bs⟩
      next => exact List.forall_mem_cons.2 ⟨hrep, ih bs⟩
      next need lo hi cp hlead =>
        split
        next cp' rest hc => exact List.forall_mem_cons.2 ⟨utf8Continue_scalar hlead hc, ih rest⟩
        next rest hc => exact List.forall_mem_cons.2 ⟨hrep, ih rest⟩

/-- Every code point of the decode is a Unicode scalar value (10_state.md R43). -/
theorem utf8Lossy_scalars (bs : List Byte) : ∀ cp ∈ utf8Lossy bs, scalarValue cp = true := utf8Loop_scalars _ _

/-- Settles O33: by the lead-byte table, a complete sequence gives a scalar value, and U+FFFD is one. -/
theorem lossyDecodeEmitsScalars : Obligations.LossyDecodeEmitsScalars :=
  fun b => ⟨utf8Lossy_length b, utf8Lossy_scalars b⟩

/-! ### The numbers of DETECT stay in their ranges -/

theorem round4_le {n d : Nat} (hd : 0 < d) (h : n ≤ d) : round4 n d ≤ 10000 := by
  obtain rfl | hlt := Nat.eq_or_lt_of_le h
  · simp [round4, hd]
  · have hq : 10000 * n / d < 10000 := (Nat.div_lt_iff_lt_mul hd).2 (by omega)
    simp only [round4]
    split_ifs <;> omega

theorem pairFlips_le (p q : Pixel) : pairFlips p q ≤ 3 := by
  have hbound : ∀ v : BitVec 3, codePopcount v ≤ 3 := by decide
  exact hbound _

theorem rowFlips_le (row : List Pixel) : rowFlips row ≤ 3 * (row.length - 1) := by
  induction row using rowFlips.induct with
  | case1 => simp [rowFlips]
  | case2 p => simp [rowFlips]
  | case3 p q rest ih =>
    have hpair := pairFlips_le p q
    simp only [rowFlips, List.length_cons] at ih ⊢
    omega

/-- The guard of `comparisons` changes nothing on naturals. -/
theorem comparisons_eq (w h : Nat) : comparisons w h = 3 * h * (w - 1) := by
  unfold comparisons
  split
  · rfl
  · simp [show w - 1 = 0 by omega]

theorem imageFlips_le (w h : Nat) (image : List Pixel) : imageFlips w h image ≤ comparisons w h := by
  rw [comparisons_eq]
  induction h generalizing image with
  | zero => simp [imageFlips]
  | succ h ih =>
    have hrow : rowFlips (image.take w) ≤ 3 * (w - 1) :=
      (rowFlips_le _).trans (by rw [List.length_take]; omega)
    calc imageFlips w (h + 1) image ≤ 3 * (w - 1) + 3 * h * (w - 1) := Nat.add_le_add hrow (ih _)
      _ = 3 * (h + 1) * (w - 1) := by ring

theorem balanceScore_le (ones total : Nat) : (balanceScore ones total).1 ≤ (balanceScore ones total).2 := by
  unfold balanceScore
  split <;> simp

theorem balanceScore_den (ones total : Nat) : (balanceScore ones total).2 = if total = 0 then 1 else total := by
  unfold balanceScore
  split <;> rfl

theorem flipScore_le (flips comps : Nat) : (flipScore flips comps).1 ≤ (flipScore flips comps).2 := by
  unfold flipScore
  split <;> simp

theorem flipScore_den (flips comps : Nat) : (flipScore flips comps).2 = if comps = 0 then 1 else comps := by
  unfold flipScore
  split <;> rfl

/-- Two fractions of at most 1 give a score of at most 1 (45_detector.md R213). -/
theorem scorePair_le {bs fs : Nat × Nat} (hb : bs.1 ≤ bs.2) (hf : fs.1 ≤ fs.2) :
    (scorePair bs fs).1 ≤ (scorePair bs fs).2 := by
  calc 3 * bs.1 * fs.2 + 2 * fs.1 * bs.2 ≤ 3 * bs.2 * fs.2 + 2 * fs.2 * bs.2 := by gcongr
    _ = 5 * bs.2 * fs.2 := by ring

/-- The denominator of the score for an image of the largest size is below 2^71 (45_detector.md R214). -/
theorem scorePair_den_bounds {ones total flips comps : Nat} (ht : total < 2 ^ 34) (hc : comps < 2 ^ 34) :
    5 ≤ (scorePair (balanceScore ones total) (flipScore flips comps)).2 ∧
    (scorePair (balanceScore ones total) (flipScore flips comps)).2 < 2 ^ 71 := by
  have hb : 1 ≤ (balanceScore ones total).2 ∧ (balanceScore ones total).2 ≤ 2 ^ 34 := by
    rw [balanceScore_den]; split <;> omega
  have hf : 1 ≤ (flipScore flips comps).2 ∧ (flipScore flips comps).2 ≤ 2 ^ 34 := by
    rw [flipScore_den]; split <;> omega
  simp only [scorePair]
  constructor
  · calc 5 = 5 * 1 * 1 := rfl
      _ ≤ 5 * (balanceScore ones total).2 * (flipScore flips comps).2 := by gcongr <;> omega
  · calc 5 * (balanceScore ones total).2 * (flipScore flips comps).2 ≤ 5 * 2 ^ 34 * 2 ^ 34 := by gcongr <;> omega
      _ < 2 ^ 71 := by norm_num

theorem opWidth_lt (s : State) : opWidth s < 2 ^ 16 := s.width.isLt

theorem opHeight_lt (s : State) : opHeight s < 2 ^ 16 := s.height.isLt

theorem totalSamples_lt (s : State) : totalSamples (opWidth s) (opHeight s) < 2 ^ 34 := by
  have hw := opWidth_lt s
  have hh := opHeight_lt s
  calc 3 * opWidth s * opHeight s ≤ 3 * 2 ^ 16 * 2 ^ 16 := by gcongr
    _ < 2 ^ 34 := by norm_num

theorem comparisons_lt (s : State) : comparisons (opWidth s) (opHeight s) < 2 ^ 34 := by
  have hw := opWidth_lt s
  have hh := opHeight_lt s
  rw [comparisons_eq]
  calc 3 * opHeight s * (opWidth s - 1) ≤ 3 * 2 ^ 16 * 2 ^ 16 := by gcongr; omega
    _ < 2 ^ 34 := by norm_num

/-- SCORE_NUM and SCORE_DEN of an image as numbers (45_detector.md R213), before they are stored. -/
def detectScore (image : List Pixel) (s : State) : Nat × Nat :=
  scorePair (balanceScore (imageOnes image) (totalSamples (opWidth s) (opHeight s)))
    (flipScore (imageFlips (opWidth s) (opHeight s) image) (comparisons (opWidth s) (opHeight s)))

theorem detectScore_bounds (image : List Pixel) (s : State) :
    (detectScore image s).1 ≤ (detectScore image s).2 ∧ 5 ≤ (detectScore image s).2 ∧
    (detectScore image s).2 < 2 ^ 71 :=
  ⟨scorePair_le (balanceScore_le _ _) (flipScore_le _ _), scorePair_den_bounds (totalSamples_lt s) (comparisons_lt s)⟩

/-- The score fits its two registers. -/
theorem detectWrites_score_toNat (image : List Pixel) (s : State) :
    (detectWrites image s).results.scoreNum.toNat = (detectScore image s).1 ∧
    (detectWrites image s).results.scoreDen.toNat = (detectScore image s).2 := by
  obtain ⟨hle, _, hlt⟩ := detectScore_bounds image s
  have hden : (detectScore image s).2 < 2 ^ 128 := by omega
  exact ⟨Nat.mod_eq_of_lt (hle.trans_lt hden), Nat.mod_eq_of_lt hden⟩

/-- Settles O46: the score of the image read is below 2^71, so the two 128-bit registers hold it. -/
theorem scoreRegistersExact : Obligations.ScoreRegistersExact := by
  intro s t h
  obtain ⟨_, _, image, himage, rfl⟩ := execDetect_next.1 h
  obtain ⟨hle, hge, hlt⟩ := detectScore_bounds image s
  obtain ⟨hnum, hden⟩ : (detectWrites image (startCommand (encodeWord .detect) s)).results.scoreNum.toNat =
        (detectScore image s).1 ∧
      (detectWrites image (startCommand (encodeWord .detect) s)).results.scoreDen.toNat = (detectScore image s).2 :=
    detectWrites_score_toNat image _
  refine ⟨image, himage, ?_⟩
  simp only [endCommand_results, hnum, hden]
  refine ⟨rfl, hle, hge, hlt, ?_⟩
  calc (detectScore image s).2 = 5 * (balanceScore _ _).2 * (flipScore _ _).2 := rfl
    _ = _ := by rw [balanceScore_den, flipScore_den]; rfl

/-! ### The invariant: the result registers -/

/-- What the invariant says of the result registers (10_state.md R30, R31, R33, R34). -/
structure Results.Inv (r : Results) : Prop where
  utilDenPos : 0 < r.utilDen.toNat
  scoreFraction : r.scoreNum.toNat ≤ r.scoreDen.toNat ∧ 1 ≤ r.scoreDen.toNat
  detailsRange : r.balE4.toNat ≤ 10000 ∧ r.flipE4.toNat ≤ 10000
  fnameLen : r.outFnameLen.toNat ≤ r.outNameLen.toNat

theorem Results.cleared_inv : Results.cleared.Inv := by
  constructor <;> decide

/-- A command's result registers meet the invariant when those that it speaks of hold cleared values. -/
theorem Results.Inv.of_cleared {r : Results} (hutil : r.utilDen = 1) (hnum : r.scoreNum = 0) (hden : r.scoreDen = 1)
    (hbal : r.balE4 = 0) (hflip : r.flipE4 = 0) (hfname : r.outFnameLen = 0) : r.Inv := by
  constructor <;> simp [*]

/-- The utilization's denominator is the capacity, or 1 (43_encoder.md R168). -/
theorem utilization_den_bounds (s : State) (used : Nat) :
    0 < (utilization used (capacityBits (opWidth s) (opHeight s))).2 ∧
    (utilization used (capacityBits (opWidth s) (opHeight s))).2 < 2 ^ 64 := by
  have hcap : capacityBits (opWidth s) (opHeight s) < 2 ^ 34 := totalSamples_lt s
  unfold utilization
  split
  · simp
  · exact ⟨by omega, hcap.trans (by norm_num)⟩

theorem encodeWrites_results_inv (image : List Pixel) (name payload : List Byte) {s : State} (hs : s.results.Inv) :
    (encodeWrites image name payload s).results.Inv where
  utilDenPos := by
    obtain ⟨hpos, hlt⟩ := utilization_den_bounds s (frameBits s)
    exact hpos.trans_eq (Nat.mod_eq_of_lt hlt).symm
  scoreFraction := hs.scoreFraction
  detailsRange := hs.detailsRange
  fnameLen := hs.fnameLen

theorem decodeWrites_results_inv (payload : List Byte) {hdr : Header} {s : State} (hs : s.results.Inv)
    (hname : hdr.nameBytes.length ≤ 65535) (hfname : hdr.filename = utf8Lossy hdr.nameBytes) :
    (decodeWrites hdr payload s).results.Inv where
  utilDenPos := hs.utilDenPos
  scoreFraction := hs.scoreFraction
  detailsRange := hs.detailsRange
  fnameLen := by
    have hlen := utf8Lossy_length hdr.nameBytes
    simp only [decodeWrites, BitVec.toNat_ofNat, hfname]
    rw [Nat.mod_eq_of_lt (by omega), Nat.mod_eq_of_lt (by omega)]
    exact hlen

/-- BAL_E4 rounds a fraction of at most 1 (45_detector.md R202, R203). -/
theorem round4_lsbBalance_le {ones total : Nat} (h : ones ≤ total) :
    round4 (lsbBalance ones total).1 (lsbBalance ones total).2 ≤ 10000 := by
  unfold lsbBalance
  split
  · decide
  · exact round4_le (by omega) h

/-- FLIP_E4 rounds a fraction of at most 1 (45_detector.md R206, R207). -/
theorem round4_flipRate_le {flips comps : Nat} (h : flips ≤ comps) :
    round4 (flipRate flips comps).1 (flipRate flips comps).2 ≤ 10000 := by
  unfold flipRate
  split
  · decide
  · exact round4_le (by omega) h

theorem detectWrites_results_inv {image : List Pixel} {s : State} (hs : s.results.Inv)
    (himage : image.length = pixelCount s) : (detectWrites image s).results.Inv where
  utilDenPos := hs.utilDenPos
  scoreFraction := by
    obtain ⟨hnum, hden⟩ := detectWrites_score_toNat image s
    obtain ⟨hle, hge, _⟩ := detectScore_bounds image s
    omega
  detailsRange := by
    have hones : imageOnes image ≤ totalSamples (opWidth s) (opHeight s) := by
      have := imageOnes_le image
      rwa [himage, pixelCount, ← Nat.mul_assoc] at this
    exact ⟨(Nat.mod_le _ _).trans (round4_lsbBalance_le hones),
      (Nat.mod_le _ _).trans (round4_flipRate_le (imageFlips_le _ _ _))⟩
  fnameLen := hs.fnameLen

/-! ### The invariant: commands -/

theorem writeCells_keys_lt {α : Type} {a bound : Nat} {vs : List α} {m : Memory α}
    (hvs : vs.length = 0 ∨ a + vs.length ≤ bound) (hm : ∀ x ∈ m.map Prod.fst, x < bound) :
    ∀ x ∈ (writeCells a vs m).map Prod.fst, x < bound := by
  intro x hx
  obtain ⟨c, hc, rfl⟩ := List.mem_map.1 hx
  obtain ⟨_, hlt, _⟩ | hold := mem_writeCells hc
  · omega
  · exact hm _ (List.mem_map_of_mem hold)

/-- No pixel cell at or beyond MAX_PIXELS holds a value (00_scope.md R7). -/
def pixelCellsExist (s : State) (m : Memory Pixel) : Prop := ∀ a ∈ m.map Prod.fst, a < s.cfg.maxPixels

theorem State.Inv.pixIn_exist {s : State} (hs : s.Inv) : pixelCellsExist s s.pixIn :=
  fun a ha => hs.pixelsExist a (.inl ha)

theorem State.Inv.pixOut_exist {s : State} (hs : s.Inv) : pixelCellsExist s s.pixOut :=
  fun a ha => hs.pixelsExist a (.inr ha)

theorem State.Inv.results_inv {s : State} (hs : s.Inv) : s.results.Inv :=
  ⟨hs.utilDenPos, hs.scoreFraction, hs.detailsRange, hs.fnameLen⟩

/-- The invariant after a command that leaves the input spaces: what it does to CMD, STATUS, the result registers and
the output spaces is enough. -/
theorem State.Inv.afterCommand {s : State} (hs : s.Inv) {c : BitVec 32} {e : ErrCode} {r : Results}
    {pixOut : Memory Pixel} {payOut nameOut : Memory Byte} {fnameOut : Memory CodePoint}
    (hfits : errFits c e = true) (hr : r.Inv) (hwf : pixOut.wf ∧ payOut.wf ∧ nameOut.wf ∧ fnameOut.wf)
    (hexist : pixelCellsExist s pixOut) (hscalars : ∀ c ∈ fnameOut, scalarValue c.2 = true) :
    State.Inv { s with
      cmd := c, phase := .done, err := e, results := r
      pixOut := pixOut, payOut := payOut, nameOut := nameOut, fnameOut := fnameOut } := by
  obtain ⟨hpixIn, -, hpayIn, hnameIn, -⟩ := hs.memWf
  obtain ⟨hpixOut, hdecoded⟩ := hwf
  exact {
    memWf := ⟨hpixIn, hpixOut, hpayIn, hnameIn, hdecoded⟩
    notBusy := nofun
    idleClean := nofun
    doneErr := fun _ => hfits
    utilDenPos := hr.utilDenPos
    scoreFraction := hr.scoreFraction
    detailsRange := hr.detailsRange
    fnameLen := hr.fnameLen
    fnameScalars := hscalars
    pixelsExist := fun a ha => ha.elim (hs.pixIn_exist a) (hexist a) }

/-- The invariant after a command that writes no cell. -/
theorem State.Inv.afterCommand_cells_kept {s : State} (hs : s.Inv) {c : BitVec 32} {e : ErrCode} {r : Results}
    (hfits : errFits c e = true) (hr : r.Inv) :
    State.Inv { s with cmd := c, phase := .done, err := e, results := r } := by
  obtain ⟨-, hpixOut, -, -, hpayOut, hnameOut, hfnameOut⟩ := hs.memWf
  exact hs.afterCommand hfits hr ⟨hpixOut, hpayOut, hnameOut, hfnameOut⟩ hs.pixOut_exist hs.fnameScalars

/-- ERR fits a command's own word exactly when the command can end with it (60_exceptions.md R242). -/
theorem errFits_encodeWord (i : Instr) (e : ErrCode) : errFits (encodeWord i) e = errAllowed i e := by
  cases i <;> rfl

theorem startCommand_results_inv (c : BitVec 32) (s : State) : (startCommand c s).results.Inv := Results.cleared_inv

theorem execCapacity_keeps_inv {s t : State} (hs : s.Inv) (h : exec .capacity s = .next t) : t.Inv := by
  obtain ⟨_, hrule⟩ := execCapacity_next.1 h
  cases hrule
  exact hs.afterCommand_cells_kept (errFits_encodeWord .capacity .none) (.of_cleared rfl rfl rfl rfl rfl rfl)

theorem execEncode_keeps_inv {s t : State} (hs : s.Inv) (h : exec .encode s = .next t) : t.Inv := by
  obtain ⟨_, hmax, ⟨_, rfl⟩ | ⟨_, name, payload, image, _, _, himage, rfl⟩⟩ := execEncode_next.1 h
  · exact hs.afterCommand_cells_kept (errFits_encodeWord .encode .capacityExceeded)
      (.of_cleared rfl rfl rfl rfl rfl rfl)
  · obtain ⟨-, hpixOut, -, -, hpayOut, hnameOut, hfnameOut⟩ := hs.memWf
    exact hs.afterCommand (errFits_encodeWord .encode .none)
      (encodeWrites_results_inv image name payload (.of_cleared rfl rfl rfl rfl rfl rfl))
      ⟨writeCells_wf 0 _ hpixOut, hpayOut, hnameOut, hfnameOut⟩
      (writeCells_keys_lt (.inr (by rwa [embed_length, readCells_length himage, Nat.zero_add])) hs.pixOut_exist)
      hs.fnameScalars

theorem unpackHeader_raised_cases {bits : Bitstream} {e : ErrCode} (h : unpackHeader bits = .error (.raised e)) :
    e = .headerTooShort ∨ e = .noStegoHeader ∨ e = .corruptHeader := by
  have hspec := unpackHeader_spec bits
  rw [h] at hspec
  simpa using hspec

/-- The errors of the header are errors of DECODE (60_exceptions.md R242). -/
theorem unpackHeader_raised_fits {bits : Bitstream} {e : ErrCode} (h : unpackHeader bits = .error (.raised e)) :
    errFits (encodeWord .decode) e = true := by
  rw [errFits_encodeWord]
  obtain rfl | rfl | rfl := unpackHeader_raised_cases h <;> rfl

theorem execDecode_keeps_inv {s t : State} (hs : s.Inv) (h : exec .decode s = .next t) : t.Inv := by
  obtain ⟨_, _, image, _, ⟨e, he, rfl⟩ | ⟨_, _, _, rfl⟩ | ⟨hdr, payload, hhdr, _, _, _, rfl⟩⟩ := execDecode_next.1 h
  · exact hs.afterCommand_cells_kept (unpackHeader_raised_fits he) Results.cleared_inv
  · exact hs.afterCommand_cells_kept (errFits_encodeWord .decode .insufficientData) Results.cleared_inv
  · obtain ⟨-, hpixOut, -, -, hpayOut, hnameOut, hfnameOut⟩ := hs.memWf
    have hspec := unpackHeader_spec (extract image)
    rw [hhdr] at hspec
    obtain ⟨hname, _, _, _, hfname⟩ := hspec
    refine hs.afterCommand (errFits_encodeWord .decode .none)
      (decodeWrites_results_inv payload (startCommand_results_inv (encodeWord .decode) s) hname hfname)
      ⟨hpixOut, writeCells_wf 0 _ hpayOut, writeCells_wf 0 _ hnameOut, writeCells_wf 0 _ hfnameOut⟩
      hs.pixOut_exist fun c hc => ?_
    obtain ⟨_, _, hwritten⟩ | hold := mem_writeCells hc
    · exact utf8Lossy_scalars _ _ (hfname ▸ hwritten)
    · exact hs.fnameScalars c hold

theorem execDetect_keeps_inv {s t : State} (hs : s.Inv) (h : exec .detect s = .next t) : t.Inv := by
  obtain ⟨_, _, image, himage, rfl⟩ := execDetect_next.1 h
  exact hs.afterCommand_cells_kept (errFits_encodeWord .detect .none)
    (detectWrites_results_inv (startCommand_results_inv (encodeWord .detect) s) (readCells_length himage))

theorem exec_keeps_inv {i : Instr} {s t : State} (hs : s.Inv) (h : exec i s = .next t) : t.Inv := by
  cases i with
  | capacity => exact execCapacity_keeps_inv hs h
  | encode => exact execEncode_keeps_inv hs h
  | decode => exact execDecode_keeps_inv hs h
  | detect => exact execDetect_keeps_inv hs h

theorem illegalCommand_keeps_inv {c : BitVec 32} {d : DecodeError} {s t : State} (hs : s.Inv)
    (hd : decodeWord c = .error d) (h : illegalCommand c s = .next t) : t.Inv := by
  obtain ⟨_, hend⟩ := runCommand_next.1 h
  cases hend
  exact hs.afterCommand_cells_kept (by simp [errFits, hd]) Results.cleared_inv

/-! ### The invariant: actions of the host -/

/-- The host writes only the operand registers and the input spaces (10_state.md R21, R40). -/
theorem State.Inv.afterHostWrite {s : State} (hs : s.Inv) {width height : BitVec 16} {payLen nameLen : BitVec 32}
    {pixIn : Memory Pixel} {payIn nameIn : Memory Byte} {host : HostSide}
    (hwf : pixIn.wf ∧ payIn.wf ∧ nameIn.wf) (hexist : pixelCellsExist s pixIn) :
    State.Inv { s with
      width := width, height := height, payLen := payLen, nameLen := nameLen
      pixIn := pixIn, payIn := payIn, nameIn := nameIn, host := host } := by
  obtain ⟨-, hpixOut, -, -, hdecoded⟩ := hs.memWf
  obtain ⟨hpixIn, hpayIn, hnameIn⟩ := hwf
  exact {
    memWf := ⟨hpixIn, hpixOut, hpayIn, hnameIn, hdecoded⟩
    notBusy := hs.notBusy
    idleClean := hs.idleClean
    doneErr := hs.doneErr
    utilDenPos := hs.utilDenPos
    scoreFraction := hs.scoreFraction
    detailsRange := hs.detailsRange
    fnameLen := hs.fnameLen
    fnameScalars := hs.fnameScalars
    pixelsExist := fun a ha => ha.elim (hexist a) (hs.pixOut_exist a) }

theorem State.Inv.inputs_wf {s : State} (hs : s.Inv) : s.pixIn.wf ∧ s.payIn.wf ∧ s.nameIn.wf := by
  obtain ⟨hpixIn, -, hpayIn, hnameIn, -⟩ := hs.memWf
  exact ⟨hpixIn, hpayIn, hnameIn⟩

theorem dropAction_inv {s : State} (hs : s.Inv) : (dropAction s).Inv :=
  hs.afterHostWrite hs.inputs_wf hs.pixIn_exist

theorem respond_inv (r : Response) {s : State} (hs : s.Inv) : (respond r s).Inv :=
  hs.afterHostWrite hs.inputs_wf hs.pixIn_exist

theorem writeRegister_inv (n : Nat) (v : BitVec (regWidth n)) {s : State} (hs : s.Inv) :
    (writeRegister s n v).Inv := by
  obtain ⟨_, hw⟩ | ⟨_, hw⟩ | ⟨_, hw⟩ | ⟨_, hw⟩ | hw := writeRegister_cases s n v <;> rw [hw]
  · exact hs.afterHostWrite hs.inputs_wf hs.pixIn_exist
  · exact hs.afterHostWrite hs.inputs_wf hs.pixIn_exist
  · exact hs.afterHostWrite hs.inputs_wf hs.pixIn_exist
  · exact hs.afterHostWrite hs.inputs_wf hs.pixIn_exist
  · exact hs

/-- Reset gives a state that meets the invariant, whatever the block held (70_reset_and_hazards.md R260). -/
theorem resetBlock_inv (s : State) : (resetBlock s).Inv where
  memWf := by simp [State.memWf]
  notBusy := nofun
  idleClean := fun _ => ⟨rfl, rfl, rfl, rfl, rfl, rfl, rfl⟩
  doneErr := nofun
  utilDenPos := Results.cleared_inv.utilDenPos
  scoreFraction := Results.cleared_inv.scoreFraction
  detailsRange := Results.cleared_inv.detailsRange
  fnameLen := Results.cleared_inv.fnameLen
  fnameScalars := nofun
  pixelsExist := by simp

theorem hostAct_keeps_inv {act : HostAction} {s t : State} (hs : s.Inv) (h : hostAct act s = .next t) : t.Inv := by
  obtain ⟨hpixIn, hpayIn, hnameIn⟩ := hs.inputs_wf
  cases act with
  | writeReg n v =>
    obtain ⟨_, ht⟩ := whenOwned_next.1 h
    cases ht
    exact writeRegister_inv n v hs
  | writePixIn a vs =>
    obtain ⟨_, hcells, rfl⟩ := onCells_next.1 h
    have hrange : vs.length = 0 ∨ a + vs.length ≤ s.cfg.maxPixels := by simpa [cellsExist] using hcells
    exact hs.afterHostWrite ⟨writeCells_wf a vs hpixIn, hpayIn, hnameIn⟩ (writeCells_keys_lt hrange hs.pixIn_exist)
  | writePayIn a vs =>
    obtain ⟨_, _, rfl⟩ := onCells_next.1 h
    exact hs.afterHostWrite ⟨hpixIn, writeCells_wf a vs hpayIn, hnameIn⟩ hs.pixIn_exist
  | writeNameIn a vs =>
    obtain ⟨_, _, rfl⟩ := onCells_next.1 h
    exact hs.afterHostWrite ⟨hpixIn, hpayIn, writeCells_wf a vs hnameIn⟩ hs.pixIn_exist
  | readReg n =>
    obtain hr | hr := hostAct_readReg_cases n s
    · cases hr.symm.trans h
      exact respond_inv _ hs
    · cases hr.symm.trans h
  | readSpace sp a n =>
    obtain ⟨_, _, rfl⟩ := onCells_next.1 h
    exact respond_inv _ hs
  | reset =>
    cases h
    exact resetBlock_inv s

/-- Settles O57: the reset state holds no cell and cleared results. -/
theorem invariantAtReset : Obligations.InvariantAtReset := Tests.reset_inv

/-- Settles O58: no action of the host, no command and no illegal word breaks the invariant. -/
theorem stepKeepsInvariant : Obligations.StepKeepsInvariant := by
  intro s t hs h
  obtain ⟨_, rfl⟩ | ⟨_, _, _, _, _, ht⟩ | ⟨_, _, _, _, hd, ht⟩ | ⟨_, _, _, _, ht⟩ := step_next h
  · exact hs
  · exact exec_keeps_inv (dropAction_inv hs) ht
  · exact illegalCommand_keeps_inv (dropAction_inv hs) hd ht
  · exact hostAct_keeps_inv (dropAction_inv hs) ht

/-! ### The host port: one step of each access -/

theorem dropAction_eq {s : State} {act : HostAction} {rest : List HostAction} (hq : s.host.queue = act :: rest) :
    dropAction s = { s with host := ⟨rest, s.host.response⟩ } := by
  simp [dropAction, hq]

/-- A step on an action other than a write of CMD, with the queue after it written out. -/
theorem step_eq_hostAct {s : State} {act : HostAction} {rest : List HostAction} (hq : s.host.queue = act :: rest)
    (hc : ∀ c, act ≠ .writeReg 0 c) : step s = hostAct act { s with host := ⟨rest, s.host.response⟩ } := by
  rw [step_hostAct hq hc, dropAction_eq hq]

theorem whenOwned_of_not_busy {s : State} (hb : s.phase ≠ .busy) (o : Out) : whenOwned s o = o := if_neg hb

theorem step_writeReg {s : State} {n : Nat} {v : BitVec (regWidth n)} {rest : List HostAction} (hb : s.phase ≠ .busy)
    (hn : n ≠ 0) (hq : s.host.queue = .writeReg n v :: rest) :
    step s = .next (writeRegister { s with host := ⟨rest, s.host.response⟩ } n v) := by
  rw [step_eq_hostAct hq fun c hc => hn (by cases hc; rfl)]
  exact whenOwned_of_not_busy hb _

theorem step_readReg {s : State} {n : Nat} {rest : List HostAction} (hb : s.phase ≠ .busy)
    (hq : s.host.queue = .readReg n :: rest) :
    step s = .next { s with host := ⟨rest, some (.reg n (readRegister s n))⟩ } := by
  rw [step_eq_hostAct hq nofun]
  simp only [hostAct]
  split
  · rfl
  · exact whenOwned_of_not_busy hb _

theorem step_readSpace {s : State} {sp : Space} {a n : Nat} {rest : List HostAction} (hb : s.phase ≠ .busy)
    (hcells : cellsExist s.cfg sp a n = true) (hq : s.host.queue = .readSpace sp a n :: rest) :
    step s = .next { s with host := ⟨rest, some (readSpaceCells s sp a n)⟩ } := by
  rw [step_eq_hostAct hq nofun]
  exact onCells_next.2 ⟨hb, hcells, rfl⟩

/-- A number that is no operand register's and not CMD's is not written (10_state.md R21). -/
theorem writeRegister_of_readOnly {n : Nat} (hn : n = 1 ∨ 6 ≤ n) (s : State) (v : BitVec (regWidth n)) :
    writeRegister s n v = s := by
  unfold writeRegister
  split
  case h_5 => rfl
  all_goals omega

theorem readRegister_of_absent {n : Nat} (hn : 24 < n) (s : State) : readRegister s n = 0 := by
  obtain ⟨k, rfl⟩ : ∃ k, n = k + 25 := ⟨n - 25, by omega⟩
  rfl

theorem readRegister_reset (n : Nat) :
    readRegister State.reset n = BitVec.ofNat (regWidth n) (if n = 13 ∨ n = 23 then 1 else 0) := by
  have hlisted : ∀ k < 25,
      readRegister State.reset k = BitVec.ofNat (regWidth k) (if k = 13 ∨ k = 23 then 1 else 0) := by decide
  obtain hn | hn := Nat.lt_or_ge n 25
  · exact hlisted n hn
  · rw [readRegister_of_absent (by omega), if_neg (by omega)]
    rfl

theorem statusWord_toNat (p : Phase) (e : ErrCode) :
    (statusWord p e).toNat = (stateCode p).toNat + 16 * (errCode e).toNat := by
  cases p <;> cases e <;> rfl

/-- Settles O1: the listed registers are computed, the absent ones read 0. -/
theorem resetRegistersAndCells : Obligations.ResetRegistersAndCells :=
  ⟨readRegister_reset, rfl, rfl, fun _ => ⟨rfl, rfl, rfl, rfl, rfl, rfl, rfl⟩⟩

/-- Settles O3: the word is the sum of its two fields, and each field holds its code. -/
theorem statusWordFields : Obligations.StatusWordFields := by
  intro s
  refine (statusWord_toNat s.phase s.err).trans (congrArg₂ (· + 16 * ·) ?_ ?_)
  · cases s.phase <;> rfl
  · cases s.err <;> rfl

/-- Settles O4: `writeRegister` on each of the four numbers. -/
theorem operandRegisterWrites : Obligations.OperandRegisterWrites :=
  fun _ _ hb => ⟨fun _ hq => step_writeReg hb (by decide) hq, fun _ hq => step_writeReg hb (by decide) hq,
    fun _ hq => step_writeReg hb (by decide) hq, fun _ hq => step_writeReg hb (by decide) hq⟩

/-- Settles O5: `writeRegister` ignores these numbers. -/
theorem readOnlyWritesIgnored : Obligations.ReadOnlyWritesIgnored := by
  intro s n v rest hb hn hq
  rw [step_writeReg hb (by omega) hq, writeRegister_of_readOnly hn]

/-- Settles O6: the port answers `readRegister`, which is each register's field. -/
theorem registerReads : Obligations.RegisterReads :=
  ⟨fun _ _ _ hb hq => step_readReg hb hq, fun s _ hn => readRegister_of_absent hn s,
    fun _ => by and_intros <;> rfl⟩

/-- Settles O8: the written space is `writeCells` of the old one, of which `readCell_writeCells` says every cell. -/
theorem inputCellWrites : Obligations.InputCellWrites := by
  intro s a rest hb
  refine ⟨fun vs hvs hq => ?_, fun vs hq => ?_, fun vs hq => ?_⟩
  · refine ⟨_, ?_, readCell_writeCells a vs s.pixIn⟩
    rw [step_eq_hostAct hq nofun]
    exact onCells_next.2 ⟨hb, by simp [cellsExist, hvs], rfl⟩
  · refine ⟨_, ?_, readCell_writeCells a vs s.payIn⟩
    rw [step_eq_hostAct hq nofun]
    exact onCells_next.2 ⟨hb, rfl, rfl⟩
  · refine ⟨_, ?_, readCell_writeCells a vs s.nameIn⟩
    rw [step_eq_hostAct hq nofun]
    exact onCells_next.2 ⟨hb, rfl, rfl⟩

/-- Settles O9: each space is answered by `hostCells` of its own memory. -/
theorem spaceReads : Obligations.SpaceReads := by
  intro s a n rest hb
  exact ⟨fun hr hq => ⟨_, step_readSpace hb (by simpa [cellsExist] using hr) hq, hostCells_answersRead ..⟩,
    fun hr hq => ⟨_, step_readSpace hb (by simpa [cellsExist] using hr) hq, hostCells_answersRead ..⟩,
    fun hq => ⟨_, step_readSpace hb rfl hq, hostCells_answersRead ..⟩,
    fun hq => ⟨_, step_readSpace hb rfl hq, hostCells_answersRead ..⟩,
    fun hq => ⟨_, step_readSpace hb rfl hq, hostCells_answersRead ..⟩,
    fun hq => ⟨_, step_readSpace hb rfl hq, hostCells_answersRead ..⟩,
    fun hq => ⟨_, step_readSpace hb rfl hq, hostCells_answersRead ..⟩⟩

/-- Settles O15: the fetch takes the action that writes CMD. -/
theorem stepRunsDecodedCommand : Obligations.StepRunsDecodedCommand := by
  intro s c i rest hq hd
  rw [step_command hq hd, dropAction_eq hq]

/-! ### The host port while BUSY -/

theorem runCommand_of_busy {s : State} (hb : s.phase = .busy) (c : BitVec 32) (rule : State → Out) :
    runCommand c rule s = .refused .accessWhileBusy := if_pos hb

theorem exec_of_busy {s : State} (hb : s.phase = .busy) (i : Instr) : exec i s = .refused .accessWhileBusy := by
  cases i with
  | capacity => exact runCommand_of_busy hb ..
  | encode => exact runCommand_of_busy hb ..
  | decode => exact runCommand_of_busy hb ..
  | detect => exact runCommand_of_busy hb ..

theorem onCells_of_busy {s : State} (hb : s.phase = .busy) (sp : Space) (a n : Nat) (t : State) :
    onCells s sp a n t = .refused .accessWhileBusy := if_pos hb

theorem hostAct_of_busy {s : State} {act : HostAction} (hb : s.phase = .busy) (hreset : act ≠ .reset)
    (hstatus : act ≠ .readReg 1) : hostAct act s = .refused .accessWhileBusy := by
  cases act with
  | writeReg n v => exact if_pos hb
  | writePixIn a vs => exact onCells_of_busy hb ..
  | writePayIn a vs => exact onCells_of_busy hb ..
  | writeNameIn a vs => exact onCells_of_busy hb ..
  | readReg n =>
    have hn : n ≠ 1 := fun hn => hstatus (hn ▸ rfl)
    simp [hostAct, hn, whenOwned, hb]
  | readSpace sp a n => exact onCells_of_busy hb ..
  | reset => exact absurd rfl hreset

theorem step_writeCmd_of_busy {s : State} {c : BitVec 32} {rest : List HostAction} (hb : s.phase = .busy)
    (hq : s.host.queue = .writeReg 0 c :: rest) : step s = .refused .accessWhileBusy := by
  cases hd : decodeWord c with
  | ok i =>
    rw [step_command hq hd]
    exact exec_of_busy (s := dropAction s) hb i
  | error e =>
    rw [step_illegal hq hd]
    exact runCommand_of_busy (s := dropAction s) hb ..

/-- Settles O7: a write of CMD is refused by the start of the command, any other access by the port. -/
theorem busyAllowsStatusReadOnly : Obligations.BusyAllowsStatusReadOnly := by
  intro s act rest hb hq hreset
  by_cases hstatus : act = .readReg 1
  · subst hstatus
    rw [if_pos rfl, step_eq_hostAct hq nofun]
    rfl
  rw [if_neg hstatus]
  by_cases hcmd : ∃ c, act = .writeReg 0 c
  · obtain ⟨c, rfl⟩ := hcmd
    exact step_writeCmd_of_busy hb hq
  · rw [step_eq_hostAct hq (not_exists.1 hcmd)]
    exact hostAct_of_busy hb hreset hstatus

/-! ### When a command is refused -/

/-- A command that reads pixels is refused for MAX_PIXELS (20_memory.md R73), or by its body. -/
theorem runCommand_pixels_refused {c : BitVec 32} {atRaise : State → State} {body : State → Except Stop State}
    {s : State} {r : Refusal} (hb : s.phase ≠ .busy) :
    runCommand c (withinMaxPixels fun u => finishCommand (atRaise u) (body u)) s = .refused r ↔
      (s.cfg.maxPixels < pixelCount s ∧ r = .imageBeyondMaxPixels) ∨
      (pixelCount s ≤ s.cfg.maxPixels ∧ body (startCommand c s) = .error (.refused r)) := by
  rw [runCommand_refused hb, withinMaxPixels_refused, finishCommand_refused]
  rfl

theorem execCapacity_ne_refused {s : State} (hb : s.phase ≠ .busy) (r : Refusal) : exec .capacity s ≠ .refused r := by
  intro h
  cases (runCommand_refused hb).1 h

theorem execEncode_refused {s : State} {r : Refusal} (hb : s.phase ≠ .busy) : exec .encode s = .refused r ↔
    (s.cfg.maxPixels < pixelCount s ∧ r = .imageBeyondMaxPixels) ∨
    (pixelCount s ≤ s.cfg.maxPixels ∧ encodeBody s = .error (.refused r)) := by
  have hbody : encodeBody (encodeReport (startCommand (encodeWord .encode) s)) = .error (.refused r) ↔
      encodeBody s = .error (.refused r) := by
    rw [encodeBody_refused, encodeBody_refused]
    rfl
  exact (runCommand_pixels_refused (atRaise := encodeReport) (body := fun u => encodeBody (encodeReport u)) hb).trans
    (or_congr_right (and_congr_right fun _ => hbody))

theorem execDecode_refused {s : State} {r : Refusal} (hb : s.phase ≠ .busy) : exec .decode s = .refused r ↔
    (s.cfg.maxPixels < pixelCount s ∧ r = .imageBeyondMaxPixels) ∨
    (pixelCount s ≤ s.cfg.maxPixels ∧ readCells s.pixIn 0 (pixelCount s) = none ∧ r = .cellHoldsNoValue .pixIn) :=
  (runCommand_pixels_refused (atRaise := id) hb).trans (or_congr_right (and_congr_right fun _ => decodeBody_refused))

theorem execDetect_refused {s : State} {r : Refusal} (hb : s.phase ≠ .busy) : exec .detect s = .refused r ↔
    (s.cfg.maxPixels < pixelCount s ∧ r = .imageBeyondMaxPixels) ∨
    (pixelCount s ≤ s.cfg.maxPixels ∧ readCells s.pixIn 0 (pixelCount s) = none ∧ r = .cellHoldsNoValue .pixIn) :=
  (runCommand_pixels_refused (atRaise := id) hb).trans (or_congr_right (and_congr_right fun _ => detectBody_refused))

/-- The block read has no result exactly when one of its cells holds no value. -/
theorem not_cellsHeld_iff {α : Type} {m : Memory α} (hm : m.wf) (n : Nat) :
    ¬ cellsHeld m n ↔ readCells m 0 n = none := by
  rw [cellsHeld_iff_isSome hm, Option.not_isSome_iff_eq_none]

/-- ENCODE's body is refused only in a space that lacks a cell, when the frame fits (10_state.md R44). -/
theorem encodeBody_refused_lacks {s : State} {r : Refusal} (hwf : s.memWf) (h : encodeBody s = .error (.refused r)) :
    (∃ sp, r = .cellHoldsNoValue sp ∧ s.lacksCell sp) ∧ ¬ s.suppliedFor .encode := by
  obtain ⟨hpixIn, -, hpayIn, hnameIn, -⟩ := hwf
  obtain ⟨hfits, ⟨hnone, rfl⟩ | ⟨_, hnone, rfl⟩ | ⟨_, _, hnone, rfl⟩⟩ := encodeBody_refused.1 h
  · have hlacks := (not_cellsHeld_iff hnameIn _).2 hnone
    refine ⟨⟨.nameIn, rfl, hlacks⟩, ?_⟩
    rintro (hover | ⟨_, _, hheld⟩)
    · omega
    · exact hlacks hheld
  · have hlacks := (not_cellsHeld_iff hpayIn _).2 hnone
    refine ⟨⟨.payIn, rfl, hlacks⟩, ?_⟩
    rintro (hover | ⟨_, hheld, _⟩)
    · omega
    · exact hlacks hheld
  · have hlacks := (not_cellsHeld_iff hpixIn _).2 hnone
    refine ⟨⟨.pixIn, rfl, hlacks⟩, ?_⟩
    rintro (hover | ⟨hheld, _, _⟩)
    · omega
    · exact hlacks hheld

/-- An ENCODE whose frame fits is refused at the first of its three reads that lacks a cell. -/
theorem encodeBody_refused_of_unsupplied {s : State} (hwf : s.memWf) (h : ¬ s.suppliedFor .encode) :
    ∃ sp, encodeBody s = .error (.refused (.cellHoldsNoValue sp)) ∧ s.lacksCell sp := by
  obtain ⟨hpixIn, -, hpayIn, hnameIn, -⟩ := hwf
  obtain ⟨hover, hlack⟩ := not_or.1 h
  have hfits : frameBits s ≤ capacityBits (opWidth s) (opHeight s) := by omega
  by_cases hname : cellsHeld s.nameIn (nameLenUsed (opNameLenIn s))
  · have hnameSome := (cellsHeld_iff_isSome hnameIn _).1 hname
    by_cases hpay : cellsHeld s.payIn (opPayLen s)
    · have hpix : ¬ cellsHeld s.pixIn (pixelCount s) := fun hpix => hlack ⟨hpix, hpay, hname⟩
      exact ⟨.pixIn, encodeBody_refused.2 ⟨hfits, .inr (.inr ⟨hnameSome, (cellsHeld_iff_isSome hpayIn _).1 hpay,
        (not_cellsHeld_iff hpixIn _).1 hpix, rfl⟩)⟩, hpix⟩
    · exact ⟨.payIn, encodeBody_refused.2 ⟨hfits, .inr (.inl ⟨hnameSome, (not_cellsHeld_iff hpayIn _).1 hpay, rfl⟩)⟩,
        hpay⟩
  · exact ⟨.nameIn, encodeBody_refused.2 ⟨hfits, .inl ⟨(not_cellsHeld_iff hnameIn _).1 hname, rfl⟩⟩, hname⟩

theorem exec_refused_reasons {i : Instr} {s : State} {r : Refusal} (hb : s.phase ≠ .busy) (hwf : s.memWf)
    (h : exec i s = .refused r) :
    (r = .imageBeyondMaxPixels ∧ i ≠ .capacity ∧ s.cfg.maxPixels < pixelCount s) ∨
    ((∃ sp, r = .cellHoldsNoValue sp ∧ s.lacksCell sp) ∧ ¬ s.suppliedFor i) := by
  cases i with
  | capacity => exact absurd h (execCapacity_ne_refused hb r)
  | encode =>
    obtain ⟨hmax, rfl⟩ | ⟨_, hbody⟩ := (execEncode_refused hb).1 h
    · exact .inl ⟨rfl, nofun, hmax⟩
    · exact .inr (encodeBody_refused_lacks hwf hbody)
  | decode =>
    obtain ⟨hmax, rfl⟩ | ⟨_, hnone, rfl⟩ := (execDecode_refused hb).1 h
    · exact .inl ⟨rfl, nofun, hmax⟩
    · have hlacks := (not_cellsHeld_iff hwf.1 _).2 hnone
      exact .inr ⟨⟨.pixIn, rfl, hlacks⟩, hlacks⟩
  | detect =>
    obtain ⟨hmax, rfl⟩ | ⟨_, hnone, rfl⟩ := (execDetect_refused hb).1 h
    · exact .inl ⟨rfl, nofun, hmax⟩
    · have hlacks := (not_cellsHeld_iff hwf.1 _).2 hnone
      exact .inr ⟨⟨.pixIn, rfl, hlacks⟩, hlacks⟩

theorem exec_refused_beyond {i : Instr} {s : State} (hb : s.phase ≠ .busy) (hi : i ≠ .capacity)
    (hmax : s.cfg.maxPixels < pixelCount s) : exec i s = .refused .imageBeyondMaxPixels := by
  cases i with
  | capacity => exact absurd rfl hi
  | encode => exact (execEncode_refused hb).2 (.inl ⟨hmax, rfl⟩)
  | decode => exact (execDecode_refused hb).2 (.inl ⟨hmax, rfl⟩)
  | detect => exact (execDetect_refused hb).2 (.inl ⟨hmax, rfl⟩)

theorem exec_refused_of_unsupplied {i : Instr} {s : State} (hb : s.phase ≠ .busy) (hwf : s.memWf)
    (hmax : pixelCount s ≤ s.cfg.maxPixels) (h : ¬ s.suppliedFor i) :
    ∃ sp, exec i s = .refused (.cellHoldsNoValue sp) ∧ s.lacksCell sp := by
  cases i with
  | capacity => exact absurd trivial h
  | encode =>
    obtain ⟨sp, hbody, hlacks⟩ := encodeBody_refused_of_unsupplied hwf h
    exact ⟨sp, (execEncode_refused hb).2 (.inr ⟨hmax, hbody⟩), hlacks⟩
  | decode =>
    exact ⟨.pixIn, (execDecode_refused hb).2 (.inr ⟨hmax, (not_cellsHeld_iff hwf.1 _).1 h, rfl⟩), h⟩
  | detect =>
    exact ⟨.pixIn, (execDetect_refused hb).2 (.inr ⟨hmax, (not_cellsHeld_iff hwf.1 _).1 h, rfl⟩), h⟩

/-- Settles O51: no command faults, and each of its refusals is inverted and reached. -/
theorem commandsStopExactlyForMissingCells : Obligations.CommandsStopExactlyForMissingCells :=
  fun i s hb hwf => ⟨exec_ne_fault i s, fun _ h => exec_refused_reasons hb hwf h, exec_refused_beyond hb,
    exec_refused_of_unsupplied hb hwf⟩

/-! ### A command's answer depends on what it reads -/

theorem readCells_congr {α : Type} {m m' : Memory α} (hm : m.wf) (hm' : m'.wf) {n : Nat}
    (h : ∀ a, a < n → readCell m' a = readCell m a) : readCells m' 0 n = readCells m 0 n := by
  refine Option.ext fun vs => ?_
  simp only [readCells_eq_some_iff hm, readCells_eq_some_iff hm', Nat.zero_add]
  exact and_congr_right fun _ => forall₂_congr fun a ha => by rw [h a ha]

/-- Two spaces that take the same values from index 0 agree on these cells. -/
theorem readCell_writeCells_congr {α : Type} {vs : List α} {a : Nat} (h : a < vs.length) (m m' : Memory α) :
    readCell (writeCells 0 vs m') a = readCell (writeCells 0 vs m) a := by
  simp [readCell_writeCells, h]

theorem unpackHeader_raised_ne_none {bits : Bitstream} {e : ErrCode} (h : unpackHeader bits = .error (.raised e)) :
    e ≠ .none := by
  obtain rfl | rfl | rfl := unpackHeader_raised_cases h <;> nofun

section SameOperands

variable {s s' t : State} (hb : s'.phase ≠ .busy) (hcfg : s'.cfg = s.cfg) (hw : s'.width = s.width)
  (hh : s'.height = s.height)

include hw hh in
theorem pixelCount_congr : pixelCount s' = pixelCount s := by
  simp [pixelCount, opWidth, opHeight, hw, hh]

include hb hw hh in
theorem execCapacity_congr (h : exec .capacity s = .next t) :
    ∃ t', exec .capacity s' = .next t' ∧ t'.phase = t.phase ∧ t'.err = t.err ∧ t'.results = t.results := by
  obtain ⟨_, hrule⟩ := execCapacity_next.1 h
  cases hrule
  exact ⟨_, execCapacity_next.2 ⟨hb, rfl⟩, rfl, rfl, by simp [opWidth, opHeight, hw, hh]⟩

include hb hcfg hw hh in
theorem execEncode_congr (hpay : s'.payLen = s.payLen) (hname : s'.nameLen = s.nameLen)
    (hpixIn : readCells s'.pixIn 0 (pixelCount s) = readCells s.pixIn 0 (pixelCount s))
    (hpayIn : readCells s'.payIn 0 (opPayLen s) = readCells s.payIn 0 (opPayLen s))
    (hnameIn : readCells s'.nameIn 0 (nameLenUsed (opNameLenIn s)) =
      readCells s.nameIn 0 (nameLenUsed (opNameLenIn s)))
    (h : exec .encode s = .next t) :
    ∃ t', exec .encode s' = .next t' ∧ t'.phase = t.phase ∧ t'.err = t.err ∧ t'.results = t.results ∧
      (t.err = .none → ∀ a, a < pixelCount s → readCell t'.pixOut a = readCell t.pixOut a) := by
  have hwidth : opWidth s' = opWidth s := congrArg BitVec.toNat hw
  have hheight : opHeight s' = opHeight s := congrArg BitVec.toNat hh
  have hpayLen : opPayLen s' = opPayLen s := congrArg BitVec.toNat hpay
  have hnameLen : opNameLenIn s' = opNameLenIn s := congrArg BitVec.toNat hname
  have hcount : pixelCount s' = pixelCount s := pixelCount_congr hw hh
  have hframe : frameBits s' = frameBits s := by rw [frameBits, frameBits, hpayLen, hnameLen]
  obtain ⟨_, hmax, ⟨hover, rfl⟩ | ⟨hfits, name, payload, image, hn, hp, hi, rfl⟩⟩ := execEncode_next.1 h
  · refine ⟨_, execEncode_next.2 ⟨hb, by rwa [hcount, hcfg], .inl ⟨by rwa [hwidth, hheight, hframe], rfl⟩⟩,
      rfl, rfl, ?_, nofun⟩
    simp [hwidth, hheight, hframe]
  · refine ⟨_, execEncode_next.2 ⟨hb, by rwa [hcount, hcfg], .inr ⟨by rwa [hwidth, hheight, hframe],
      name, payload, image, by rwa [hnameLen, hnameIn], by rwa [hpayLen, hpayIn], by rwa [hcount, hpixIn], rfl⟩⟩,
      rfl, rfl, ?_, fun _ a ha => ?_⟩
    · simp [encodeWrites, hwidth, hheight, hframe, hw, hh]
    · simp only [endCommand_pixOut, encodeWrites_pixOut, encodeReport_opNameLenIn, encodeReport_opPayLen,
        startCommand_opNameLenIn, startCommand_opPayLen, hnameLen, hpayLen]
      exact readCell_writeCells_congr (by rwa [embed_length, readCells_length hi]) _ _

include hb hcfg hw hh in
theorem execDecode_congr (hpixIn : readCells s'.pixIn 0 (pixelCount s) = readCells s.pixIn 0 (pixelCount s))
    (h : exec .decode s = .next t) :
    ∃ t', exec .decode s' = .next t' ∧ t'.phase = t.phase ∧ t'.err = t.err ∧ t'.results = t.results ∧
      (t.err = .none → ∀ a,
        (a < t.results.outNameLen.toNat → readCell t'.nameOut a = readCell t.nameOut a) ∧
        (a < t.results.outFnameLen.toNat → readCell t'.fnameOut a = readCell t.fnameOut a) ∧
        (a < t.results.outPayLen.toNat → readCell t'.payOut a = readCell t.payOut a)) := by
  have hcount : pixelCount s' = pixelCount s := pixelCount_congr hw hh
  obtain ⟨_, hmax, image, himage, hend⟩ := execDecode_next.1 h
  have hanswers {t'} (ht) : exec .decode s' = .next t' :=
    execDecode_next.2 ⟨hb, by rwa [hcount, hcfg], image, by rwa [hcount, hpixIn], ht⟩
  obtain ⟨e, he, rfl⟩ | ⟨hdr, hhdr, hshort, rfl⟩ | ⟨hdr, payload, hhdr, hfits, hbytes, hlen, rfl⟩ := hend
  · exact ⟨_, hanswers (.inl ⟨e, he, rfl⟩), rfl, rfl, rfl, fun hnone => absurd hnone (unpackHeader_raised_ne_none he)⟩
  · exact ⟨_, hanswers (.inr (.inl ⟨hdr, hhdr, hshort, rfl⟩)), rfl, rfl, rfl, nofun⟩
  · refine ⟨_, hanswers (.inr (.inr ⟨hdr, payload, hhdr, hfits, hbytes, hlen, rfl⟩)), rfl, rfl, rfl, fun _ a => ?_⟩
    exact ⟨fun ha => readCell_writeCells_congr (ha.trans_le (Nat.mod_le _ _)) _ _,
      fun ha => readCell_writeCells_congr (ha.trans_le (Nat.mod_le _ _)) _ _,
      fun ha => readCell_writeCells_congr (ha.trans_le (hlen ▸ Nat.mod_le _ _)) _ _⟩

include hb hcfg hw hh in
theorem execDetect_congr (hpixIn : readCells s'.pixIn 0 (pixelCount s) = readCells s.pixIn 0 (pixelCount s))
    (h : exec .detect s = .next t) :
    ∃ t', exec .detect s' = .next t' ∧ t'.phase = t.phase ∧ t'.err = t.err ∧ t'.results = t.results := by
  have hcount : pixelCount s' = pixelCount s := pixelCount_congr hw hh
  obtain ⟨_, hmax, image, himage, rfl⟩ := execDetect_next.1 h
  exact ⟨_, execDetect_next.2 ⟨hb, by rwa [hcount, hcfg], image, by rwa [hcount, hpixIn], rfl⟩, rfl, rfl,
    by simp [detectWrites, opWidth, opHeight, hw, hh]⟩

end SameOperands

/-- Settles O54: the cells a command reads give it the same lists, and its answer is a function of these. -/
theorem commandsAreStateless : Obligations.CommandsAreStateless := by
  intro i s s' t _ hb hwf hwf' hcfg hw hh hpix henc h
  obtain ⟨hpixIn, -, hpayIn, hnameIn, -⟩ := hwf
  obtain ⟨hpixIn', -, hpayIn', hnameIn', -⟩ := hwf'
  cases i with
  | capacity =>
    obtain ⟨t', ht, hphase, herr, hresults⟩ := execCapacity_congr hb hw hh h
    exact ⟨t', ht, hphase, herr, hresults, nofun, nofun⟩
  | encode =>
    obtain ⟨hpay, hname, hpayCells, hnameCells⟩ := henc rfl
    obtain ⟨t', ht, hphase, herr, hresults, hcells⟩ := execEncode_congr hb hcfg hw hh hpay hname
      (readCells_congr hpixIn hpixIn' (hpix nofun)) (readCells_congr hpayIn hpayIn' hpayCells)
      (readCells_congr hnameIn hnameIn' hnameCells) h
    exact ⟨t', ht, hphase, herr, hresults, fun _ => hcells, nofun⟩
  | decode =>
    obtain ⟨t', ht, hphase, herr, hresults, hcells⟩ :=
      execDecode_congr hb hcfg hw hh (readCells_congr hpixIn hpixIn' (hpix nofun)) h
    exact ⟨t', ht, hphase, herr, hresults, nofun, fun _ => hcells⟩
  | detect =>
    obtain ⟨t', ht, hphase, herr, hresults⟩ :=
      execDetect_congr hb hcfg hw hh (readCells_congr hpixIn hpixIn' (hpix nofun)) h
    exact ⟨t', ht, hphase, herr, hresults, nofun, nofun⟩

/-! ### The frame of every command -/

/-- Every command leaves the operand registers, the input spaces, the parameters and the host's side. -/
theorem exec_next_kept {i : Instr} {s t : State} (h : exec i s = .next t) :
    t.width = s.width ∧ t.height = s.height ∧ t.payLen = s.payLen ∧ t.nameLen = s.nameLen ∧ t.pixIn = s.pixIn ∧
      t.payIn = s.payIn ∧ t.nameIn = s.nameIn ∧ t.cfg = s.cfg ∧ t.host = s.host ∧ t.epoch = s.epoch := by
  cases i with
  | capacity =>
    obtain ⟨_, hrule⟩ := execCapacity_next.1 h
    cases hrule
    simp
  | encode =>
    obtain ⟨_, _, ⟨_, rfl⟩ | ⟨_, _, _, _, _, _, _, rfl⟩⟩ := execEncode_next.1 h
    · simp
    · simp
  | decode =>
    obtain ⟨_, _, _, _, ⟨_, _, rfl⟩ | ⟨_, _, _, rfl⟩ | ⟨_, _, _, _, _, _, rfl⟩⟩ := execDecode_next.1 h
    · simp
    · simp
    · simp
  | detect =>
    obtain ⟨_, _, _, _, rfl⟩ := execDetect_next.1 h
    simp

/-- A write from index 0 leaves the cells at and beyond its length. -/
theorem readCell_writeCells_beyond {α : Type} {vs : List α} {n a : Nat} (hn : vs.length = n) (h : n ≤ a)
    (m : Memory α) : readCell (writeCells 0 vs m) a = readCell m a := by
  simp [readCell_writeCells, hn, Nat.not_lt_of_le h]

/-- ENCODE writes PIX_OUT only, below w·h, and the registers of R36 that it owns. -/
theorem execEncode_frame {s t : State} (h : exec .encode s = .next t) :
    (∀ a, s.width.toNat * s.height.toNat ≤ a → readCell t.pixOut a = readCell s.pixOut a) ∧
    (t.nameOut = s.nameOut ∧ t.fnameOut = s.fnameOut ∧ t.payOut = s.payOut) ∧
    ∃ outW outH capBits neededBits usedBits utilNum utilDen, t.results = { Results.cleared with
      outW := outW, outH := outH, capBits := capBits, neededBits := neededBits, usedBits := usedBits
      utilNum := utilNum, utilDen := utilDen } := by
  obtain ⟨_, _, ⟨_, rfl⟩ | ⟨_, _, _, _, _, _, himage, rfl⟩⟩ := execEncode_next.1 h
  · exact ⟨fun _ _ => rfl, ⟨rfl, rfl, rfl⟩, _, _, _, _, _, _, _, rfl⟩
  · exact ⟨fun a ha => readCell_writeCells_beyond ((embed_length _ _).trans (readCells_length himage)) ha _,
      ⟨rfl, rfl, rfl⟩, _, _, _, _, _, _, _, rfl⟩

/-- DECODE writes its three output spaces only, below the lengths it reports, and the registers of R36 that it owns. -/
theorem execDecode_frame {s t : State} (h : exec .decode s = .next t) :
    t.pixOut = s.pixOut ∧
    (∀ a, (t.results.outNameLen.toNat ≤ a → readCell t.nameOut a = readCell s.nameOut a) ∧
      (t.results.outFnameLen.toNat ≤ a → readCell t.fnameOut a = readCell s.fnameOut a) ∧
      (t.results.outPayLen.toNat ≤ a → readCell t.payOut a = readCell s.payOut a)) ∧
    ∃ hdrBits outNameLen outPayLen outFnameLen, t.results = { Results.cleared with
      hdrBits := hdrBits, outNameLen := outNameLen, outPayLen := outPayLen, outFnameLen := outFnameLen } := by
  obtain ⟨_, _, image, _, ⟨_, _, rfl⟩ | ⟨_, _, _, rfl⟩ | ⟨hdr, payload, hhdr, _, _, hpay, rfl⟩⟩ := execDecode_next.1 h
  · exact ⟨rfl, fun _ => ⟨fun _ => rfl, fun _ => rfl, fun _ => rfl⟩, _, _, _, _, rfl⟩
  · exact ⟨rfl, fun _ => ⟨fun _ => rfl, fun _ => rfl, fun _ => rfl⟩, _, _, _, _, rfl⟩
  · have hspec := unpackHeader_spec (extract image)
    rw [hhdr] at hspec
    obtain ⟨hname, hpayLt, _, _, hfname⟩ := hspec
    have hfnameLen : hdr.filename.length ≤ hdr.nameBytes.length := hfname ▸ utf8Lossy_length _
    exact ⟨rfl, fun _ =>
      ⟨fun ha => readCell_writeCells_beyond (Nat.mod_eq_of_lt (by omega)).symm ha _,
        fun ha => readCell_writeCells_beyond (Nat.mod_eq_of_lt (by omega)).symm ha _,
        fun ha => readCell_writeCells_beyond (hpay.trans (Nat.mod_eq_of_lt hpayLt).symm) ha _⟩, _, _, _, _, rfl⟩

/-- Settles O55: the next state of each command, part by part. -/
theorem commandFrames : Obligations.CommandFrames := by
  intro i s t h
  refine ⟨exec_next_kept h, ?_⟩
  cases i with
  | capacity =>
    obtain ⟨_, hrule⟩ := execCapacity_next.1 h
    cases hrule
    simp [Results.cleared]
  | encode =>
    obtain ⟨hpixOut, hdecoded, _, _, _, _, _, _, _, hresults⟩ := execEncode_frame h
    simpa [hresults, Results.cleared, hdecoded] using hpixOut
  | decode =>
    obtain ⟨hpixOut, hdecoded, _, _, _, _, hresults⟩ := execDecode_frame h
    simp only [hresults] at hdecoded
    simpa [hresults, Results.cleared, hpixOut] using hdecoded
  | detect =>
    obtain ⟨_, _, _, _, rfl⟩ := execDetect_next.1 h
    simp [detectWrites, Results.cleared]

end Sys2Proof.Machine
end

section
/-! PROOF. Family 20_memory.md: a read changes no state of the block and its answer depends on none but the block's. -/

namespace Sys2Proof.Machine

/-- A register read is answered outside BUSY, and a read of STATUS in BUSY too (60_exceptions.md R245). -/
theorem step_readReg_next {s t : State} {n : Nat} {rest : List HostAction} (hq : s.host.queue = .readReg n :: rest)
    (h : step s = .next t) : n = 1 ∨ s.phase ≠ .busy := by
  by_contra hnot
  obtain ⟨hn, hb⟩ := not_or.1 hnot
  have hrefused := busyAllowsStatusReadOnly s _ _ (not_not.1 hb) hq nofun
  rw [if_neg (by simpa using hn)] at hrefused
  cases hrefused.symm.trans h

/-- A range read is answered outside BUSY, where the cells exist. -/
theorem step_readSpace_next {s t : State} {sp : Space} {a n : Nat} {rest : List HostAction}
    (hq : s.host.queue = .readSpace sp a n :: rest) (h : step s = .next t) :
    s.phase ≠ .busy ∧ cellsExist s.cfg sp a n = true := by
  rw [step_eq_hostAct hq nofun] at h
  obtain ⟨hb, hcells, _⟩ := onCells_next.1 h
  exact ⟨hb, hcells⟩

/-- A read that is answered once gets this answer whenever the block is in the same state, whatever the host has asked
for before and asks for next, and nothing but the host's side changes. -/
theorem step_read_answer_fixed {s t : State} {act : HostAction} {rest : List HostAction}
    (hq : s.host.queue = act :: rest) (hread : (∃ n, act = .readReg n) ∨ ∃ sp a n, act = .readSpace sp a n)
    (h : step s = .next t) :
    ∃ r, ∀ rest' before, step { s with host := ⟨act :: rest', before⟩ } = .next { s with host := ⟨rest', some r⟩ } := by
  obtain ⟨n, rfl⟩ | ⟨sp, a, n, rfl⟩ := hread
  · obtain rfl | hb := step_readReg_next hq h
    · exact ⟨.reg 1 (readRegister s 1), fun _ _ => rfl⟩
    · exact ⟨.reg n (readRegister s n), fun _ _ => step_readReg (s := { s with host := ⟨_, _⟩ }) hb rfl⟩
  · obtain ⟨hb, hcells⟩ := step_readSpace_next hq h
    exact ⟨readSpaceCells s sp a n, fun _ _ => step_readSpace (s := { s with host := ⟨_, _⟩ }) hb hcells rfl⟩

/-- Settles O10: the answer to a read is fixed by the state of the block, which the read keeps; no command writes an
input space, by the frame of every command. -/
theorem readsHaveNoSideEffect : Obligations.ReadsHaveNoSideEffect := by
  refine ⟨fun s t act rest hq hread h => ?_, fun i s t h => ?_⟩
  · obtain ⟨r, hanswer⟩ := step_read_answer_fixed hq hread h
    have hfirst : step s = .next { s with host := ⟨rest, some r⟩ } := by
      simpa only [← hq] using hanswer rest s.host.response
    cases hfirst.symm.trans h
    refine ⟨rfl, fun u hu => ⟨{ s with host := ⟨u, some r⟩ }, ?_, rfl⟩⟩
    cases hu
    exact hanswer u (some r)
  · obtain ⟨_, _, _, _, hpixIn, hpayIn, hnameIn, _⟩ := exec_next_kept h
    exact ⟨hpixIn, hpayIn, hnameIn⟩

end Sys2Proof.Machine
end

section
/-! PROOF. Family 30_encoding.md: the command word, the slots of the extracted stream and of an encoded image, and the
frame in PIX_OUT. -/

namespace Sys2Proof.Machine

/-! ### The command word -/

/-- ZERO above OP is the whole word (30_encoding.md R90): a word is fixed by its two fields. -/
theorem eq_append_iff_fields {c : BitVec 32} {zero : BitVec 28} {op : BitVec 4} :
    c = zero ++ op ↔ zeroField c = zero ∧ opField c = op := by
  constructor
  · rintro rfl
    exact ⟨BitVec.extractLsb'_append_eq_left, BitVec.extractLsb'_append_eq_right⟩
  · rintro ⟨rfl, rfl⟩
    rw [zeroField, opField, BitVec.extractLsb'_append_extractLsb'_eq_extractLsb' (start₁ := 0) (len₁ := 4) rfl]
    exact BitVec.extractLsb'_eq_self.symm

/-- The operation codes name each command once (30_encoding.md R91). -/
theorem decodeOp_eq_some_iff {op : BitVec 4} {i : Instr} : decodeOp op = some i ↔ op = opOf i := by
  constructor
  · intro h
    unfold decodeOp at h
    split at h
    case h_5 => cases h
    all_goals
      rename_i hop
      cases h
      exact BitVec.eq_of_toNat_eq hop
  · rintro rfl
    cases i <;> rfl

theorem decodeWord_eq_ok_iff_fields {c : BitVec 32} {i : Instr} :
    decodeWord c = .ok i ↔ zeroField c = 0#28 ∧ decodeOp (opField c) = some i := by
  unfold decodeWord
  split
  next hzero => simp [hzero]
  next hzero =>
    rw [not_not.1 hzero]
    cases decodeOp (opField c) <;> simp

/-- The decoder and the encoder agree on every word. -/
theorem decodeWord_eq_ok_iff {c : BitVec 32} {i : Instr} : decodeWord c = .ok i ↔ c = encodeWord i := by
  rw [decodeWord_eq_ok_iff_fields, decodeOp_eq_some_iff, encodeWord, eq_append_iff_fields]

/-- Settles O13: field by field, ZERO must be 0 and OP the command's operation code. -/
theorem decodeEncodeAgree : Obligations.DecodeEncodeAgree := fun _ _ _ => decodeWord_eq_ok_iff

/-- The command words are the numbers 1 to 4 (30_encoding.md R91, R92). -/
theorem exists_eq_encodeWord_iff {c : BitVec 32} : (∃ i, c = encodeWord i) ↔ 1 ≤ c.toNat ∧ c.toNat ≤ 4 := by
  constructor
  · rintro ⟨i, rfl⟩
    cases i <;> decide
  · intro h
    obtain hc | hc | hc | hc : c.toNat = 1 ∨ c.toNat = 2 ∨ c.toNat = 3 ∨ c.toNat = 4 := by omega
    · exact ⟨.capacity, BitVec.eq_of_toNat_eq hc⟩
    · exact ⟨.encode, BitVec.eq_of_toNat_eq hc⟩
    · exact ⟨.decode, BitVec.eq_of_toNat_eq hc⟩
    · exact ⟨.detect, BitVec.eq_of_toNat_eq hc⟩

/-- Settles O12: a word decodes exactly when it is a command's word, and these are the numbers 1 to 4. -/
theorem legalWordsAreOneToFour : Obligations.LegalWordsAreOneToFour := by
  intro c
  simp only [decodeWord_eq_ok_iff, exists_eq_encodeWord_iff]

/-- Settles O14: each word of the table is its command's word. -/
theorem tableWordsDecode : Obligations.TableWordsDecode :=
  ⟨decodeWord_eq_ok_iff.2 rfl, decodeWord_eq_ok_iff.2 rfl, decodeWord_eq_ok_iff.2 rfl, decodeWord_eq_ok_iff.2 rfl⟩

/-! ### The slots of an image -/

@[simp] theorem slotValue_cons_zero (p : Pixel) (ps : List Pixel) :
    slotValue (p :: ps) 0 = some (p.r.getLsbD 0) := rfl

@[simp] theorem slotValue_cons_one (p : Pixel) (ps : List Pixel) :
    slotValue (p :: ps) 1 = some (p.g.getLsbD 0) := rfl

@[simp] theorem slotValue_cons_two (p : Pixel) (ps : List Pixel) :
    slotValue (p :: ps) 2 = some (p.b.getLsbD 0) := rfl

@[simp] theorem slotValue_cons_add_three (p : Pixel) (ps : List Pixel) (i : Nat) :
    slotValue (p :: ps) (i + 3) = slotValue ps i := by
  simp [slotValue]

@[simp] theorem extract_cons (p : Pixel) (ps : List Pixel) :
    extract (p :: ps) = p.r.getLsbD 0 :: p.g.getLsbD 0 :: p.b.getLsbD 0 :: extract ps := rfl

/-- The stream reads the slots in order (30_encoding.md R104). -/
theorem extract_getElem? (image : List Pixel) (i : Nat) : (extract image)[i]? = slotValue image i := by
  induction image generalizing i with
  | nil => rfl
  | cons p ps ih =>
    match i with
    | 0 => simp
    | 1 => simp
    | 2 => simp
    | i + 3 => simp [ih]

/-- Settles O35: three slots a pixel, read pixel by pixel. -/
theorem extractReadsSlots : Obligations.ExtractReadsSlots :=
  fun image => ⟨extract_length image, extract_getElem? image⟩

/-! ### The slots of an encoded image -/

/-- `setLsb_lsb` in the form `simp` gives to bit 0. -/
@[simp] theorem setLsb_getElem_zero (v : Byte) (b : Bool) : (setLsb v b)[0] = b := setLsb_lsb v b

theorem three_mul_pixelsWritten_add_three (n : Nat) :
    3 * pixelsWritten (n + 3) = 3 * pixelsWritten n + 3 := by
  unfold pixelsWritten
  omega

/-- Settles O23: by the walk, a pixel at a time; a pixel that takes three bits shifts the slots after it by three. -/
theorem embedSlots : Obligations.EmbedSlots := by
  intro image bits i hi
  induction image, bits using embed.induct generalizing i with
  | case1 bits => simp at hi
  | case2 p ps => simp [pixelsWritten]
  | case3 p ps b0 =>
    match i with
    | 0 => simp [embed, embedPixel]
    | 1 => simp [embed, embedPixel, pixelsWritten]
    | 2 => simp [embed, embedPixel, pixelsWritten]
    | i + 3 => simp [embed, pixelsWritten]
  | case4 p ps b0 b1 =>
    match i with
    | 0 => simp [embed, embedPixel]
    | 1 => simp [embed, embedPixel]
    | 2 => simp [embed, embedPixel, pixelsWritten]
    | i + 3 => simp [embed, pixelsWritten]
  | case5 p ps b0 b1 b2 bits ih =>
    match i with
    | 0 => simp [embed, embedPixel]
    | 1 => simp [embed, embedPixel]
    | 2 => simp [embed, embedPixel]
    | i + 3 =>
      have hrest : i < 3 * ps.length := by
        simp only [List.length_cons] at hi
        omega
      simpa [embed, three_mul_pixelsWritten_add_three] using ih i hrest

/-! ### The frame in PIX_OUT -/

/-- Bit `i` of the serialized bytes is bit 7 − (i mod 8) of byte i div 8 (43_encoder.md R163). -/
theorem bytesToBits_getElem?_eq_frameBit {full : List Byte} {i : Nat} (hi : i < 8 * full.length) :
    (bytesToBits full)[i]? = some (frameBit full i) := by
  induction full generalizing i with
  | nil => simp at hi
  | cons b full ih =>
    rw [bytesToBits_cons]
    obtain hfirst | hnext := Nat.lt_or_ge i 8
    · rw [List.getElem?_append_left (by simpa using hfirst)]
      interval_cases i <;> rfl
    · obtain ⟨j, rfl⟩ := Nat.exists_eq_add_of_le' hnext
      have hrest : j < 8 * full.length := by
        simp only [List.length_cons] at hi
        omega
      rw [List.getElem?_append_right (by simp)]
      simpa [frameBit] using ih hrest

/-- The header of a name that has its bytes is 11 + N bytes (41_header_codec.md R130, R131). -/
theorem packHeader_length {name : List Byte} {nameLenIn payLen : Nat} (h : nameLenUsed nameLenIn ≤ name.length) :
    (packHeader name nameLenIn payLen).length = fixedHeaderBytes + nameLenUsed nameLenIn := by
  simp [packHeader, magic, u16be, u32be, fixedHeaderBytes, h]
  omega

/-- An image that is large enough holds the frame's bits in its first slots. -/
theorem slotValue_embed_frame {image : List Pixel} {full : List Byte} {i : Nat}
    (hfits : 8 * full.length ≤ 3 * image.length) (hi : i < 8 * full.length) :
    slotValue (embed image (bytesToBits full)) i = some (frameBit full i) := by
  rw [embedSlots _ _ _ (hi.trans_le hfits), bytesToBits_length, if_pos hi, bytesToBits_getElem?_eq_frameBit hi]

/-- The frame that ENCODE reads is totalBits long (43_encoder.md R161). -/
theorem frame_length {s : State} {name payload : List Byte}
    (hname : readCells s.nameIn 0 (nameLenUsed (opNameLenIn s)) = some name)
    (hpay : readCells s.payIn 0 (opPayLen s) = some payload) :
    8 * (packHeader name (opNameLenIn s) (opPayLen s) ++ payload).length = frameBits s := by
  rw [List.length_append, packHeader_length (readCells_length hname).ge, readCells_length hpay, frameBits]

/-- An ENCODE that ends without an error wrote the walk over the frame to PIX_OUT. -/
theorem execEncode_success {s t : State} (h : exec .encode s = .next t) (herr : t.err = .none) :
    frameBits s ≤ capacityBits (opWidth s) (opHeight s) ∧ ∃ name payload image,
      readCells s.nameIn 0 (nameLenUsed (opNameLenIn s)) = some name ∧
      readCells s.payIn 0 (opPayLen s) = some payload ∧ readCells s.pixIn 0 (pixelCount s) = some image ∧
      t.pixOut = writeCells 0
        (embed image (bytesToBits (packHeader name (opNameLenIn s) (opPayLen s) ++ payload))) s.pixOut := by
  obtain ⟨_, _, ⟨_, rfl⟩ | ⟨hfits, name, payload, image, hname, hpay, himage, rfl⟩⟩ := execEncode_next.1 h
  · cases herr
  · exact ⟨hfits, name, payload, image, hname, hpay, himage, rfl⟩

/-- Settles O25: PIX_OUT is read back as the walk over the frame, whose slots hold the frame's bits; the rest is the
frame of ENCODE. -/
theorem encodedImageHoldsFrame : Obligations.EncodedImageHoldsFrame := by
  intro s t name payload h herr hname hpay
  obtain ⟨hfits, name', payload', image, hname', hpay', himage, hpixOut⟩ := execEncode_success h herr
  cases hname.symm.trans hname'
  cases hpay.symm.trans hpay'
  obtain ⟨hbeyond, _⟩ := execEncode_frame h
  obtain ⟨_, _, _, _, hpixIn, _⟩ := exec_next_kept h
  refine ⟨embed image (bytesToBits (packHeader name (opNameLenIn s) (opPayLen s) ++ payload)), ?_, fun i hi => ?_,
    hbeyond, hpixIn⟩
  · have hback := readCells_writeCells_zero
      (embed image (bytesToBits (packHeader name (opNameLenIn s) (opPayLen s) ++ payload))) s.pixOut
    rwa [embed_length, readCells_length himage, ← hpixOut] at hback
  · have hlen := frame_length hname hpay
    refine slotValue_embed_frame ?_ (hi.trans_eq hlen.symm)
    rw [hlen, readCells_length himage, pixelCount, ← Nat.mul_assoc]
    exact hfits

end Sys2Proof.Machine
end

section
/-! PROOF. Family 40_bit_serializer.md: bytesToBits and bitsToBytes by index and as inverses of each other, and the
refusals a command can end in. -/

namespace Sys2Proof.Machine

/-! ### bytesToBits by index -/

/-- Slot 8j + k of a frame is bit 7 − k of byte j. -/
theorem frameBit_byte {full : List Byte} {j k : Nat} (hj : j < full.length) (hk : k < 8) :
    frameBit full (8 * j + k) = full[j].getLsbD (7 - k) := by
  have hdiv : (8 * j + k) / 8 = j := by omega
  have hmod : (8 * j + k) % 8 = k := by omega
  rw [frameBit, hdiv, hmod, ← List.getElem_eq_getD (h := hj)]

/-- Settles O28: the bits of the serialized bytes are the slots of a frame. -/
theorem bytesToBitsIndex : Obligations.BytesToBitsIndex := by
  refine fun data => ⟨bytesToBits_length data, fun j k hj hk => ?_⟩
  rw [bytesToBits_getElem?_eq_frameBit (by omega), frameBit_byte hj hk]

/-! ### The laws of the serializer -/

/-- The binary digits of a byte, most significant first, are its value (40_bit_serializer.md R121). -/
theorem ofNat_bitsValue_byteBits : ∀ b : Byte, BitVec.ofNat 8 (bitsValue (byteBits b)) = b := by
  decide

/-- Eight bits are the bits of the byte of their value (40_bit_serializer.md R120, R121). -/
theorem byteBits_ofNat_bitsValue : ∀ b7 b6 b5 b4 b3 b2 b1 b0 : Bool,
    byteBits (BitVec.ofNat 8 (bitsValue [b7, b6, b5, b4, b3, b2, b1, b0])) = [b7, b6, b5, b4, b3, b2, b1, b0] := by
  decide

/-- The first byte's bits give that byte back. -/
theorem bitsToBytes_byteBits_append (b : Byte) (rest : Bitstream) :
    bitsToBytes (byteBits b ++ rest) = (bitsToBytes rest).map (b :: ·) := by
  conv_rhs => rw [← ofNat_bitsValue_byteBits b]
  rfl

theorem bitsToBytes_bytesToBits (d : List Byte) : bitsToBytes (bytesToBits d) = some d := by
  induction d with
  | nil => rfl
  | cons b d ih => rw [bytesToBits_cons, bitsToBytes_byteBits_append, ih, Option.map_some]

theorem bytesToBits_of_bitsToBytes {bits : Bitstream} {d : List Byte} (h : bitsToBytes bits = some d) :
    bytesToBits d = bits := by
  fun_induction bitsToBytes bits generalizing d with
  | case1 =>
    cases h
    rfl
  | case2 b7 b6 b5 b4 b3 b2 b1 b0 rest ih =>
    obtain ⟨d', hd', rfl⟩ := Option.map_eq_some_iff.1 h
    rw [bytesToBits_cons, byteBits_ofNat_bitsValue, ih hd']
    rfl
  | case3 => cases h

/-- A stream of whole bytes is the serialization of the bytes it has. -/
theorem exists_bytesToBits_eq {bits : Bitstream} (h : bits.length % 8 = 0) :
    ∃ d, bitsToBytes bits = some d ∧ bytesToBits d = bits := by
  obtain ⟨d, hd, _⟩ := (bitsToBytes_spec bits).1 h
  exact ⟨d, hd, bytesToBits_of_bitsToBytes hd⟩

theorem bytesToBits_append (d e : List Byte) : bytesToBits (d ++ e) = bytesToBits d ++ bytesToBits e :=
  List.flatMap_append

/-- Settles O29: the law for `bitsToBytes (a ++ b)` follows from the other three, as whole bytes are a serialization. -/
theorem bitSerializerLaws : Obligations.BitSerializerLaws := by
  refine ⟨bitsToBytes_bytesToBits, fun _ => exists_bytesToBits_eq, bytesToBits_append, fun a b ha hb => ?_⟩
  obtain ⟨d, hd, rfl⟩ := exists_bytesToBits_eq ha
  obtain ⟨e, he, rfl⟩ := exists_bytesToBits_eq hb
  refine ⟨d, e, hd, he, ?_⟩
  rw [← bytesToBits_append, bitsToBytes_bytesToBits]

/-! ### The refusals of the commands -/

theorem encodeBody_refused_cell {s : State} {r : Refusal} (h : encodeBody s = .error (.refused r)) :
    ∃ sp, r = .cellHoldsNoValue sp := by
  obtain ⟨_, ⟨_, rfl⟩ | ⟨_, _, rfl⟩ | ⟨_, _, _, rfl⟩⟩ := encodeBody_refused.1 h
  · exact ⟨.nameIn, rfl⟩
  · exact ⟨.payIn, rfl⟩
  · exact ⟨.pixIn, rfl⟩

/-- The refusals a command can end in, in any state: an access while BUSY, an image beyond MAX_PIXELS, an input cell
without value (60_exceptions.md R248, 20_memory.md R73, 10_state.md R44). -/
theorem exec_refused_cases {i : Instr} {s : State} {r : Refusal} (h : exec i s = .refused r) :
    r = .accessWhileBusy ∨ r = .imageBeyondMaxPixels ∨ ∃ sp, r = .cellHoldsNoValue sp := by
  by_cases hb : s.phase = .busy
  · cases (exec_of_busy hb i).symm.trans h
    exact .inl rfl
  refine .inr ?_
  cases i with
  | capacity => exact absurd h (execCapacity_ne_refused hb r)
  | encode =>
    obtain ⟨_, rfl⟩ | ⟨_, hbody⟩ := (execEncode_refused hb).1 h
    · exact .inl rfl
    · exact .inr (encodeBody_refused_cell hbody)
  | decode =>
    obtain ⟨_, rfl⟩ | ⟨_, _, rfl⟩ := (execDecode_refused hb).1 h
    · exact .inl rfl
    · exact .inr ⟨.pixIn, rfl⟩
  | detect =>
    obtain ⟨_, rfl⟩ | ⟨_, _, rfl⟩ := (execDetect_refused hb).1 h
    · exact .inl rfl
    · exact .inr ⟨.pixIn, rfl⟩

/-- Settles O30: a ragged length has no result, and none of the refusals a command can end in is the one for it. -/
theorem noCommandPassesRaggedBits : Obligations.NoCommandPassesRaggedBits := by
  refine ⟨fun b => (bitsToBytes_spec b).2, fun i s h => ?_⟩
  obtain hbusy | hmax | ⟨_, hcell⟩ := exec_refused_cases h
  · cases hbusy
  · cases hmax
  · cases hcell

end Sys2Proof.Machine
end

section
/-! PROOF. Family 41_header_codec.md: packHeader and unpackHeader as inverses, and utf8_lossy on well-formed and
ill-formed bytes. -/

namespace Sys2Proof.Machine

/-! ### The fields of a packed header -/

theorem beValue_u16be {v : Nat} (h : v < 2 ^ 16) : beValue (u16be v) = v := by
  simp [beValue, u16be]
  omega

theorem beValue_u32be {v : Nat} (h : v < 2 ^ 32) : beValue (u32be v) = v := by
  simp [beValue, u32be]
  omega

/-- N fits in its two bytes (41_header_codec.md R131, R133). -/
theorem nameLenUsed_lt (nameLenIn : Nat) : nameLenUsed nameLenIn < 2 ^ 16 :=
  (Nat.min_le_right _ _).trans_lt (by decide)

/-- After the 11 fixed bytes of a packed header comes the name (41_header_codec.md R130). -/
theorem drop_packHeader (name : List Byte) (nameLenIn payLen : Nat) :
    (packHeader name nameLenIn payLen).drop fixedHeaderBytes = name.take (nameLenUsed nameLenIn) := rfl

theorem slice_packHeader_name {name : List Byte} {nameLenIn payLen : Nat} (h : nameLenUsed nameLenIn ≤ name.length) :
    slice (packHeader name nameLenIn payLen) fixedHeaderBytes (fixedHeaderBytes + nameLenUsed nameLenIn) =
      name.take (nameLenUsed nameLenIn) := by
  rw [slice, ← packHeader_length h, List.take_length, drop_packHeader]

/-- Settles O31: the fields stand side by side, and both numbers fit in their bytes. -/
theorem packHeaderLayout : Obligations.PackHeaderLayout :=
  fun name nameLenIn payLen hpay hname => ⟨packHeader_length hname, rfl, beValue_u16be (nameLenUsed_lt nameLenIn),
    beValue_u32be hpay, drop_packHeader name nameLenIn payLen⟩

/-! ### unpackHeader on a packed header -/

/-- A span of whole bytes in a stream that begins with serialized bytes is a serialization of the bytes' span. -/
theorem slice_bytesToBits_append {full : List Byte} {b : Nat} (a : Nat) (rest : Bitstream) (hb : b ≤ full.length) :
    slice (bytesToBits full ++ rest) (8 * a) (8 * b) = bytesToBits (slice full a b) := by
  have htake : (bytesToBits full ++ rest).take (8 * b) = bytesToBits (full.take b) := by
    conv_lhs => rw [← List.take_append_drop b full, bytesToBits_append, List.append_assoc]
    exact List.take_left' (by rw [bytesToBits_length, List.length_take_of_le hb])
  rw [slice, slice, htake]
  obtain ha | ha := Nat.le_total a (full.take b).length
  · conv_lhs => rw [← List.take_append_drop a (full.take b), bytesToBits_append]
    exact List.drop_left' (by rw [bytesToBits_length, List.length_take_of_le ha])
  · rw [List.drop_eq_nil_of_le ha, List.drop_eq_nil_of_le (by rw [bytesToBits_length]; omega), bytesToBits_nil]

/-- Reading such a span back gives the bytes. -/
theorem bytesOfSpan_slice_bytesToBits {full : List Byte} {b : Nat} (a : Nat) (rest : Bitstream)
    (hb : b ≤ full.length) :
    bytesOfSpan (slice (bytesToBits full ++ rest) (8 * a) (8 * b)) = .ok (slice full a b) := by
  rw [slice_bytesToBits_append a rest hb, bytesOfSpan, bitsToBytes_bytesToBits]

/-- unpackHeader on a stream whose fixed bytes hold the magic and which is as long as their name length asks for
(41_header_codec.md R135). -/
theorem unpackHeader_eq_ok {bits : Bitstream} {fixed name : List Byte}
    (hfixed : bytesOfSpan (slice bits (8 * 0) (8 * fixedHeaderBytes)) = .ok fixed) (hmagic : slice fixed 0 5 = magic)
    (hbits : headerBitsOf (beValue (slice fixed 5 7)) ≤ bits.length)
    (hname : bytesOfSpan (slice bits (8 * fixedHeaderBytes) (headerBitsOf (beValue (slice fixed 5 7)))) = .ok name) :
    unpackHeader bits = .ok ⟨name, utf8Lossy name, beValue (slice fixed 7 11),
      headerBitsOf (beValue (slice fixed 5 7))⟩ := by
  have hshort : ¬ bits.length < 8 * fixedHeaderBytes := by
    unfold headerBitsOf at hbits
    omega
  rw [Nat.mul_zero] at hfixed
  simp only [unpackHeader, if_neg hshort, hfixed, hmagic, ne_eq, not_true, if_false, unpackVariable,
    if_neg hbits.not_gt, hname]

/-- Settles O32: the two spans that unpackHeader reads are the header's fixed bytes and its name. -/
theorem unpackInvertsPack : Obligations.UnpackInvertsPack := by
  intro name nameLenIn payLen rest hpay hname
  have hlen : (packHeader name nameLenIn payLen).length = fixedHeaderBytes + nameLenUsed nameLenIn :=
    packHeader_length hname
  have hbits : headerBitsOf (nameLenUsed nameLenIn) ≤
      (bytesToBits (packHeader name nameLenIn payLen) ++ rest).length := by
    rw [List.length_append, bytesToBits_length, hlen]
    exact Nat.le_add_right _ _
  have hfixed := bytesOfSpan_slice_bytesToBits 0 rest (hlen ▸ Nat.le_add_right fixedHeaderBytes _)
  have hspan := bytesOfSpan_slice_bytesToBits fixedHeaderBytes rest hlen.ge
  rw [slice_packHeader_name hname] at hspan
  have hN : beValue (slice (slice (packHeader name nameLenIn payLen) 0 fixedHeaderBytes) 5 7) =
      nameLenUsed nameLenIn := beValue_u16be (nameLenUsed_lt nameLenIn)
  have hP : beValue (slice (slice (packHeader name nameLenIn payLen) 0 fixedHeaderBytes) 7 11) = payLen :=
    beValue_u32be hpay
  have hunpack := unpackHeader_eq_ok hfixed rfl (hN ▸ hbits) (hN ▸ hspan)
  rwa [hN, hP] at hunpack

/-! ### The lead-byte table -/

section
variable {b0 : Nat}

theorem utf8Lead_one (h : b0 < 0x80) : utf8Lead b0 = .single := if_pos (Nat.le_of_lt_succ h)

theorem utf8Lead_two (h : 0xC2 ≤ b0 ∧ b0 < 0xE0) : utf8Lead b0 = .multi 1 0x80 0xBF (b0 % 0x20) := by
  rw [utf8Lead, if_neg (by omega), if_pos (by omega)]

/-- The rows of three bytes: after 0xE0 the overlong forms are shut out, after 0xED the surrogates. -/
theorem utf8Lead_three (h : 0xE0 ≤ b0 ∧ b0 < 0xF0) : utf8Lead b0 =
    .multi 2 (if b0 = 0xE0 then 0xA0 else 0x80) (if b0 = 0xED then 0x9F else 0xBF) (b0 % 0x10) := by
  obtain rfl | rfl | hother : b0 = 0xE0 ∨ b0 = 0xED ∨ 0xE1 ≤ b0 ∧ b0 ≤ 0xEC ∨ 0xEE ≤ b0 ∧ b0 ≤ 0xEF := by omega
  · rfl
  · rfl
  · rw [utf8Lead, if_neg (by omega), if_neg (by omega), if_neg (by omega), if_pos hother, if_neg (by omega),
      if_neg (by omega)]

/-- The rows of four bytes: after 0xF0 the overlong forms are shut out, after 0xF4 what is beyond 0x10FFFF. -/
theorem utf8Lead_four (h : 0xF0 ≤ b0 ∧ b0 < 0xF5) : utf8Lead b0 =
    .multi 3 (if b0 = 0xF0 then 0x90 else 0x80) (if b0 = 0xF4 then 0x8F else 0xBF) (b0 % 0x08) := by
  obtain ⟨hmin, hmax⟩ := h
  interval_cases b0 <;> rfl

theorem utf8Lead_invalid (h : 0x80 ≤ b0 ∧ b0 < 0xC2 ∨ 0xF5 ≤ b0) : utf8Lead b0 = .invalid := by
  simp (disch := omega) only [utf8Lead, if_neg]

end

/-! ### The continuation bytes -/

@[simp] theorem utf8Continue_zero (lo hi v : Nat) (bs : List Byte) : utf8Continue 0 lo hi v bs = (v, true, bs) := by
  rw [utf8Continue]

@[simp] theorem utf8Continue_nil (n lo hi v : Nat) : utf8Continue (n + 1) lo hi v [] = (v, false, []) := rfl

theorem utf8Continue_cons_legal {n lo hi : Nat} {c : Byte} (h : lo ≤ c.toNat ∧ c.toNat ≤ hi) (v : Nat)
    (bs : List Byte) : utf8Continue (n + 1) lo hi v (c :: bs) =
      utf8Continue n 0x80 0xBF (v * 0x40 + c.toNat % 0x40) bs :=
  if_neg (by omega)

theorem utf8Continue_cons_illegal {n lo hi : Nat} {c : Byte} (h : ¬ (lo ≤ c.toNat ∧ c.toNat ≤ hi)) (v : Nat)
    (bs : List Byte) : utf8Continue (n + 1) lo hi v (c :: bs) = (v, false, c :: bs) :=
  if_pos (by omega)

section
variable {need lo hi v cp : Nat}

/-- The bytes taken are taken just so when they stand alone; where the sequence stays incomplete, the next byte would
not be taken. -/
theorem utf8Continue_split {ok : Bool} {bs rest : List Byte} (h : utf8Continue need lo hi v bs = (cp, ok, rest)) :
    ∃ cs, bs = cs ++ rest ∧ utf8Continue need lo hi v cs = (cp, ok, []) ∧
      (ok = false → ∀ c, rest.head? = some c → (utf8Continue need lo hi v (cs ++ [c])).2.2 ≠ []) := by
  fun_induction utf8Continue need lo hi v bs with
  | case1 =>
    cases h
    exact ⟨[], by simp⟩
  | case2 =>
    cases h
    exact ⟨[], by simp⟩
  | case3 n lo hi v c bs hbad =>
    cases h
    refine ⟨[], rfl, rfl, ?_⟩
    rintro _ _ ⟨⟩
    simp [utf8Continue_cons_illegal (c := c) (lo := lo) (hi := hi) (by omega)]
  | case4 n lo hi v c bs hgood ih =>
    obtain ⟨cs, rfl, hall, hnext⟩ := ih h
    refine ⟨c :: cs, rfl, ?_, fun hfail d hd => ?_⟩
    · rw [utf8Continue_cons_legal (by omega), hall]
    · rw [List.cons_append, utf8Continue_cons_legal (by omega)]
      exact hnext hfail d hd

/-- Bytes after a complete sequence are left. -/
theorem utf8Continue_append {cs : List Byte} (h : utf8Continue need lo hi v cs = (cp, true, [])) (rest : List Byte) :
    utf8Continue need lo hi v (cs ++ rest) = (cp, true, rest) := by
  fun_induction utf8Continue need lo hi v cs with
  | case1 =>
    cases h
    rw [List.nil_append, utf8Continue_zero]
  | case2 => cases h
  | case3 => cases h
  | case4 n lo hi v c cs hgood ih => rw [List.cons_append, utf8Continue_cons_legal (by omega), ih h]

/-- Where all bytes are taken, so are the first of them alone. -/
theorem utf8Continue_all_of_append {cs ds : List Byte} (h : (utf8Continue need lo hi v (cs ++ ds)).2.2 = []) :
    (utf8Continue need lo hi v cs).2.2 = [] := by
  fun_induction utf8Continue need lo hi v cs with
  | case1 =>
    rw [utf8Continue_zero] at h
    exact (List.append_eq_nil_iff.1 h).1
  | case2 => rfl
  | case3 n lo hi v c cs hbad =>
    rw [List.cons_append, utf8Continue_cons_illegal (by omega)] at h
    cases h
  | case4 n lo hi v c cs hgood ih =>
    rw [List.cons_append, utf8Continue_cons_legal (by omega)] at h
    exact ih h

/-- Bytes that are all taken can be gone on with to a complete sequence. -/
theorem utf8Continue_complete {cs : List Byte} (hrange : lo ≤ hi) (hhi : hi ≤ 0xBF)
    (h : (utf8Continue need lo hi v cs).2.2 = []) :
    ∃ ds cp, utf8Continue need lo hi v (cs ++ ds) = (cp, true, []) := by
  induction need generalizing lo hi v cs with
  | zero =>
    obtain rfl : cs = [] := by rwa [utf8Continue_zero] at h
    exact ⟨[], v, rfl⟩
  | succ n ih =>
    cases cs with
    | nil =>
      have hlo : (BitVec.ofNat 8 lo).toNat = lo := Nat.mod_eq_of_lt (by omega)
      obtain ⟨ds, cp, hds⟩ := ih (cs := []) (lo := 0x80) (hi := 0xBF) (v := v * 0x40 + lo % 0x40) (by decide)
        (by decide) (by cases n <;> simp)
      exact ⟨BitVec.ofNat 8 lo :: ds, cp, by rwa [List.nil_append, utf8Continue_cons_legal (by omega), hlo]⟩
    | cons c cs =>
      by_cases hc : lo ≤ c.toNat ∧ c.toNat ≤ hi
      · rw [utf8Continue_cons_legal hc] at h
        obtain ⟨ds, cp, hds⟩ := ih (by decide) (by decide) h
        exact ⟨ds, cp, by rwa [List.cons_append, utf8Continue_cons_legal hc]⟩
      · rw [utf8Continue_cons_illegal hc] at h
        cases h

/-- The first byte of a complete sequence is in lo..hi, and the others complete it. -/
theorem exists_cons_of_utf8Continue_complete {n : Nat} {cs : List Byte}
    (h : utf8Continue (n + 1) lo hi v cs = (cp, true, [])) :
    ∃ c ds, cs = c :: ds ∧ (lo ≤ c.toNat ∧ c.toNat ≤ hi) ∧
      utf8Continue n 0x80 0xBF (v * 0x40 + c.toNat % 0x40) ds = (cp, true, []) := by
  cases cs with
  | nil => cases h
  | cons c ds =>
    by_cases hc : lo ≤ c.toNat ∧ c.toNat ≤ hi
    · exact ⟨c, ds, rfl, hc, (utf8Continue_cons_legal hc v ds).symm.trans h⟩
    · cases (utf8Continue_cons_illegal hc v ds).symm.trans h

end

/-! ### An encoding by its number of bytes -/

section
variable {n : Nat}

theorem utf8Encode_ofNat_one (h : n < 0x80) : utf8Encode (BitVec.ofNat 21 n) = [BitVec.ofNat 8 n] := by
  rw [utf8Encode, BitVec.toNat_ofNat, Nat.mod_eq_of_lt (by omega), if_pos h]

theorem utf8Encode_ofNat_two (h : 0x80 ≤ n ∧ n < 0x800) : utf8Encode (BitVec.ofNat 21 n) =
    [BitVec.ofNat 8 (0xC0 + n / 0x40), BitVec.ofNat 8 (0x80 + n % 0x40)] := by
  rw [utf8Encode, BitVec.toNat_ofNat, Nat.mod_eq_of_lt (by omega), if_neg (by omega), if_pos h.2]

theorem utf8Encode_ofNat_three (h : 0x800 ≤ n ∧ n < 0x10000) : utf8Encode (BitVec.ofNat 21 n) =
    [BitVec.ofNat 8 (0xE0 + n / 0x1000), BitVec.ofNat 8 (0x80 + n / 0x40 % 0x40),
      BitVec.ofNat 8 (0x80 + n % 0x40)] := by
  rw [utf8Encode, BitVec.toNat_ofNat, Nat.mod_eq_of_lt (by omega), if_neg (by omega), if_neg (by omega), if_pos h.2]

theorem utf8Encode_ofNat_four (h : 0x10000 ≤ n ∧ n < 0x110000) : utf8Encode (BitVec.ofNat 21 n) =
    [BitVec.ofNat 8 (0xF0 + n / 0x40000), BitVec.ofNat 8 (0x80 + n / 0x1000 % 0x40),
      BitVec.ofNat 8 (0x80 + n / 0x40 % 0x40), BitVec.ofNat 8 (0x80 + n % 0x40)] := by
  rw [utf8Encode, BitVec.toNat_ofNat, Nat.mod_eq_of_lt (by omega), if_neg (by omega), if_neg (by omega),
    if_neg (by omega)]

end

/-! ### The decoder's first pass and the encodings -/

/-- The decoder takes an encoding whole, and the value it builds is the code point. -/
theorem utf8Encode_decodes {cp : CodePoint} (h : scalarValue cp = true) : ∃ b0 cs, utf8Encode cp = b0 :: cs ∧
    (utf8Lead b0.toNat = .single ∧ cs = [] ∧ BitVec.ofNat 21 b0.toNat = cp ∨
      ∃ need lo hi v, utf8Lead b0.toNat = .multi need lo hi v ∧
        utf8Continue need lo hi v cs = (cp.toNat, true, [])) := by
  obtain ⟨n, hn, rfl⟩ : ∃ n < 2 ^ 21, cp = BitVec.ofNat 21 n := ⟨cp.toNat, cp.isLt, by simp⟩
  simp only [scalarValue, BitVec.toNat_ofNat, Nat.mod_eq_of_lt hn, Bool.or_eq_true, Bool.and_eq_true,
    decide_eq_true_eq] at h ⊢
  obtain h1 | h2 | h3 | h4 : n < 0x80 ∨ (0x80 ≤ n ∧ n < 0x800) ∨ (0x800 ≤ n ∧ n < 0x10000) ∨
    (0x10000 ≤ n ∧ n < 0x110000) := by omega
  · have hb : (BitVec.ofNat 8 n).toNat = n := Nat.mod_eq_of_lt (by omega)
    exact ⟨_, _, utf8Encode_ofNat_one h1, .inl ⟨by rw [hb, utf8Lead_one h1], rfl, by rw [hb]⟩⟩
  · refine ⟨_, _, utf8Encode_ofNat_two h2, .inr ⟨_, _, _, _, utf8Lead_two (by rw [BitVec.toNat_ofNat]; omega), ?_⟩⟩
    rw [utf8Continue_cons_legal (by rw [BitVec.toNat_ofNat]; omega), utf8Continue_zero]
    simp only [BitVec.toNat_ofNat, Prod.mk.injEq, and_true]
    omega
  · refine ⟨_, _, utf8Encode_ofNat_three h3, .inr ⟨_, _, _, _, utf8Lead_three (by rw [BitVec.toNat_ofNat]; omega), ?_⟩⟩
    rw [utf8Continue_cons_legal (by simp only [BitVec.toNat_ofNat]; split_ifs <;> omega),
      utf8Continue_cons_legal (by rw [BitVec.toNat_ofNat]; omega), utf8Continue_zero]
    simp only [BitVec.toNat_ofNat, Prod.mk.injEq, and_true]
    omega
  · refine ⟨_, _, utf8Encode_ofNat_four h4, .inr ⟨_, _, _, _, utf8Lead_four (by rw [BitVec.toNat_ofNat]; omega), ?_⟩⟩
    rw [utf8Continue_cons_legal (by simp only [BitVec.toNat_ofNat]; split_ifs <;> omega),
      utf8Continue_cons_legal (by rw [BitVec.toNat_ofNat]; omega),
      utf8Continue_cons_legal (by rw [BitVec.toNat_ofNat]; omega), utf8Continue_zero]
    simp only [BitVec.toNat_ofNat, Prod.mk.injEq, and_true]
    omega

theorem ofNat_eq_byte {n : Nat} {b : Byte} (h : n = b.toNat) : BitVec.ofNat 8 n = b := by
  rw [h, BitVec.ofNat_toNat, BitVec.setWidth_eq]

theorem utf8Encode_of_single {b0 : Byte} (h : utf8Lead b0.toNat = .single) :
    utf8Encode (BitVec.ofNat 21 b0.toNat) = [b0] := by
  have hone : b0.toNat < 0x80 := by
    unfold utf8Lead at h
    split_ifs at h with hle
    exact Nat.lt_succ_of_le hle
  rw [utf8Encode_ofNat_one hone, ofNat_eq_byte rfl]

/-- What the decoder takes whole is the encoding of the value it builds: the lead-byte table shuts out the overlong
forms. -/
theorem utf8Encode_of_multi {b0 : Byte} {need lo hi v cp : Nat} {cs : List Byte}
    (hlead : utf8Lead b0.toNat = .multi need lo hi v) (h : utf8Continue need lo hi v cs = (cp, true, [])) :
    utf8Encode (BitVec.ofNat 21 cp) = b0 :: cs := by
  obtain h1 | hinvalid | h2 | h3 | h4 : b0.toNat < 0x80 ∨ (0x80 ≤ b0.toNat ∧ b0.toNat < 0xC2 ∨ 0xF5 ≤ b0.toNat) ∨
    (0xC2 ≤ b0.toNat ∧ b0.toNat < 0xE0) ∨ (0xE0 ≤ b0.toNat ∧ b0.toNat < 0xF0) ∨
    (0xF0 ≤ b0.toNat ∧ b0.toNat < 0xF5) := by omega
  · cases (utf8Lead_one h1).symm.trans hlead
  · cases (utf8Lead_invalid hinvalid).symm.trans hlead
  · cases (utf8Lead_two h2).symm.trans hlead
    obtain ⟨c, _, rfl, hc, h⟩ := exists_cons_of_utf8Continue_complete h
    cases (utf8Continue_zero ..).symm.trans h
    rw [utf8Encode_ofNat_two (by omega), ofNat_eq_byte (b := b0) (by omega), ofNat_eq_byte (b := c) (by omega)]
  · cases (utf8Lead_three h3).symm.trans hlead
    obtain ⟨c, _, rfl, hc, h⟩ := exists_cons_of_utf8Continue_complete h
    obtain ⟨d, _, rfl, hd, h⟩ := exists_cons_of_utf8Continue_complete h
    cases (utf8Continue_zero ..).symm.trans h
    rw [utf8Encode_ofNat_three (by split_ifs at hc <;> omega), ofNat_eq_byte (b := b0) (by omega),
      ofNat_eq_byte (b := c) (by split_ifs at hc <;> omega), ofNat_eq_byte (b := d) (by omega)]
  · cases (utf8Lead_four h4).symm.trans hlead
    obtain ⟨c, _, rfl, hc, h⟩ := exists_cons_of_utf8Continue_complete h
    obtain ⟨d, _, rfl, hd, h⟩ := exists_cons_of_utf8Continue_complete h
    obtain ⟨e, _, rfl, he, h⟩ := exists_cons_of_utf8Continue_complete h
    cases (utf8Continue_zero ..).symm.trans h
    rw [utf8Encode_ofNat_four (by split_ifs at hc <;> omega), ofNat_eq_byte (b := b0) (by omega),
      ofNat_eq_byte (b := c) (by split_ifs at hc <;> omega), ofNat_eq_byte (b := d) (by omega),
      ofNat_eq_byte (b := e) (by omega)]

/-- A pass of the decode over a sequence of more than one byte. -/
theorem utf8Lossy_cons_of_multi {b0 : Byte} {need lo hi v cp : Nat} {ok : Bool} {bs rest : List Byte}
    (hlead : utf8Lead b0.toNat = .multi need lo hi v) (h : utf8Continue need lo hi v bs = (cp, ok, rest)) :
    utf8Lossy (b0 :: bs) = (if ok then BitVec.ofNat 21 cp else replacementChar) :: utf8Lossy rest := by
  simp only [utf8Lossy_cons, hlead, h]

/-! ### Well-formed bytes -/

/-- An encoding decodes to its code point, whatever follows (41_header_codec.md R142). -/
theorem utf8Lossy_utf8Encode_append {cp : CodePoint} (h : scalarValue cp = true) (rest : List Byte) :
    utf8Lossy (utf8Encode cp ++ rest) = cp :: utf8Lossy rest := by
  obtain ⟨b0, cs, henc, ⟨hlead, rfl, rfl⟩ | ⟨need, lo, hi, v, hlead, hall⟩⟩ := utf8Encode_decodes h
  · rw [henc, List.cons_append, utf8Lossy_cons, hlead, List.nil_append]
  · rw [henc, List.cons_append, utf8Lossy_cons_of_multi hlead (utf8Continue_append hall rest)]
    simp

/-- A text decodes to itself, whatever follows. -/
theorem utf8Lossy_flatMap_utf8Encode_append {t : List CodePoint} (ht : ∀ cp ∈ t, scalarValue cp = true)
    (rest : List Byte) : utf8Lossy (t.flatMap utf8Encode ++ rest) = t ++ utf8Lossy rest := by
  induction t with
  | nil => rfl
  | cons cp t ih =>
    obtain ⟨hcp, ht⟩ := List.forall_mem_cons.1 ht
    rw [List.flatMap_cons, List.append_assoc, utf8Lossy_utf8Encode_append hcp, ih ht, List.cons_append]

/-- Settles O34: code point by code point, as the decoder takes each encoding whole. -/
theorem wellFormedUtf8Decodes : Obligations.WellFormedUtf8Decodes := fun t rest ht =>
  ⟨utf8Lossy_flatMap_utf8Encode_append ht rest, by simpa using utf8Lossy_flatMap_utf8Encode_append ht []⟩

/-! ### Ill-formed bytes -/

/-- Where two bytes or more begin an encoding, the decoder takes those after the first. -/
theorem utf8Continue_all_of_beginsScalar {b0 : Byte} {cs : List Byte} (hcs : cs ≠ []) (h : beginsScalar (b0 :: cs)) :
    ∃ need lo hi v, utf8Lead b0.toNat = .multi need lo hi v ∧ (utf8Continue need lo hi v cs).2.2 = [] := by
  obtain ⟨cp, hcp, ds, hds⟩ := h
  obtain ⟨_, _, henc, ⟨_, rfl, _⟩ | ⟨need, lo, hi, v, hlead, hall⟩⟩ := utf8Encode_decodes hcp
  · obtain ⟨_, happend⟩ := List.cons.inj (hds.trans henc)
    exact absurd (List.append_eq_nil_iff.1 happend).1 hcs
  · cases hds.trans henc
    exact ⟨need, lo, hi, v, hlead, utf8Continue_all_of_append (congrArg (·.2.2) hall)⟩

/-- A lead byte and continuation bytes that the decoder takes begin an encoding. -/
theorem beginsScalar_of_utf8Continue_all {b0 : Byte} {need lo hi v : Nat} {cs : List Byte}
    (hlead : utf8Lead b0.toNat = .multi need lo hi v) (h : (utf8Continue need lo hi v cs).2.2 = []) :
    beginsScalar (b0 :: cs) := by
  have hrange : lo ≤ hi ∧ hi ≤ 0xBF := by
    unfold utf8Lead at hlead
    split_ifs at hlead <;> cases hlead <;> decide
  obtain ⟨ds, cp, hall⟩ := utf8Continue_complete hrange.1 hrange.2 h
  exact ⟨BitVec.ofNat 21 cp, utf8Continue_scalar hlead hall, ds, (utf8Encode_of_multi hlead hall).symm⟩

/-- Where bytes begin with no encoding, those that the decoder's first pass takes are a maximal ill-formed subpart, and
it emits one U+FFFD for them (41_header_codec.md R141). -/
theorem exists_illFormedSubpart_replaced {b : List Byte} (hb : b ≠ [])
    (hno : ∀ cp, scalarValue cp = true → ¬ utf8Encode cp <+: b) :
    ∃ m rest, b = m ++ rest ∧ illFormedSubpart m rest ∧ utf8Lossy b = replacementChar :: utf8Lossy rest := by
  obtain ⟨b0, bs, rfl⟩ := List.exists_cons_of_ne_nil hb
  cases hlead : utf8Lead b0.toNat with
  | single =>
    refine absurd ⟨bs, ?_⟩ (hno (BitVec.ofNat 21 b0.toNat) (scalarValue_ofNat (by omega)))
    rw [utf8Encode_of_single hlead]
    rfl
  | invalid =>
    have hpass : utf8Lossy (b0 :: bs) = replacementChar :: utf8Lossy bs := by rw [utf8Lossy_cons, hlead]
    refine ⟨[b0], bs, rfl, ⟨List.cons_ne_nil _ _, hno, .inl rfl, fun c _ hbegins => ?_⟩, hpass⟩
    obtain ⟨_, _, _, _, hmulti, _⟩ := utf8Continue_all_of_beginsScalar (List.cons_ne_nil _ _) hbegins
    cases hlead.symm.trans hmulti
  | multi need lo hi v =>
    obtain ⟨cp, ok, rest, htaken⟩ : ∃ cp ok rest, utf8Continue need lo hi v bs = (cp, ok, rest) := ⟨_, _, _, rfl⟩
    have hpass := utf8Lossy_cons_of_multi hlead htaken
    obtain ⟨cs, rfl, hall, hnext⟩ := utf8Continue_split htaken
    cases ok with
    | true =>
      refine absurd ⟨rest, ?_⟩ (hno (BitVec.ofNat 21 cp) (utf8Continue_scalar hlead hall))
      rw [utf8Encode_of_multi hlead hall]
      rfl
    | false =>
      have hbegin := beginsScalar_of_utf8Continue_all hlead (congrArg (·.2.2) hall)
      refine ⟨b0 :: cs, rest, rfl, ⟨List.cons_ne_nil _ _, hno, .inr hbegin, fun c hc hbegins => ?_⟩, hpass⟩
      obtain ⟨_, _, _, _, hmulti, hmore⟩ := utf8Continue_all_of_beginsScalar (by simp) hbegins
      cases hlead.symm.trans hmulti
      exact hnext rfl c hc hmore

theorem beginsScalar_of_prefix {m m' : List Byte} (hp : m <+: m') (h : beginsScalar m') : beginsScalar m := by
  obtain ⟨cp, hcp, hm'⟩ := h
  exact ⟨cp, hcp, hp.trans hm'⟩

/-- A maximal ill-formed subpart is not a proper part of another: the next byte would go on with it. -/
theorem illFormedSubpart_eq_of_prefix {m m' rest rest' : List Byte} (h : illFormedSubpart m rest)
    (h' : illFormedSubpart m' rest') (heq : m ++ rest = m' ++ rest') (hp : m <+: m') : m = m' := by
  obtain ⟨ds, rfl⟩ := hp
  cases ds with
  | nil => rw [List.append_nil]
  | cons c ds =>
    obtain ⟨hne, _, _, hmax⟩ := h
    obtain ⟨_, _, hone | hbegins, _⟩ := h'
    · have hpos := List.length_pos_iff.2 hne
      simp only [List.length_append, List.length_cons] at hone
      omega
    · rw [List.append_assoc, List.append_cancel_left_eq] at heq
      exact absurd (beginsScalar_of_prefix ⟨ds, by simp⟩ hbegins) (hmax c (by rw [heq]; rfl))

/-- Bytes begin with at most one maximal ill-formed subpart. -/
theorem illFormedSubpart_unique {m m' rest rest' : List Byte} (h : illFormedSubpart m rest)
    (h' : illFormedSubpart m' rest') (heq : m ++ rest = m' ++ rest') : m = m' ∧ rest = rest' := by
  have hm : m = m' := by
    obtain hp | hp := List.prefix_or_prefix_of_prefix (List.prefix_append m rest) (heq ▸ List.prefix_append m' rest')
    · exact illFormedSubpart_eq_of_prefix h h' heq hp
    · exact (illFormedSubpart_eq_of_prefix h' h heq.symm hp).symm
  subst hm
  exact ⟨rfl, List.append_cancel_left heq⟩

/-- Settles O60: the bytes the decoder replaces are a maximal ill-formed subpart, and there is only one. -/
theorem illFormedUtf8Replaced : Obligations.IllFormedUtf8Replaced := by
  refine ⟨fun m rest h => ?_, fun b hb hno => ?_⟩
  · have ⟨hne, hno, _⟩ := h
    obtain ⟨m', rest', heq, h', hdecode⟩ := exists_illFormedSubpart_replaced (by simp [hne]) hno
    obtain ⟨rfl, rfl⟩ := illFormedSubpart_unique h h' heq
    exact hdecode
  · obtain ⟨m, rest, heq, h, _⟩ := exists_illFormedSubpart_replaced hb hno
    exact ⟨m, rest, heq, h⟩

end Sys2Proof.Machine
end

section
/-! PROOF. Family 42_capacity.md: the command CAPACITY, its exact numbers, and how they stand to ENCODE. -/

namespace Sys2Proof.Machine

/-! ### The command CAPACITY -/

/-- Settles O18: CAPACITY is the common start, its two writes and the end without an error. -/
theorem capacityCommand : Obligations.CapacityCommand := fun _ hb => execCapacity_next.2 ⟨hb, rfl⟩

/-- The capacity of an image of the largest size is below 2^34 (42_capacity.md R152). -/
theorem capacityBits_lt (s : State) : capacityBits (opWidth s) (opHeight s) < 2 ^ 34 := totalSamples_lt s

/-- A 64-bit register holds a capacity, and any smaller number, as it is (42_capacity.md R152). -/
theorem toNat_ofNat_of_le_capacityBits {s : State} {n : Nat} (h : n ≤ capacityBits (opWidth s) (opHeight s)) :
    (BitVec.ofNat 64 n).toNat = n :=
  Nat.mod_eq_of_lt (h.trans_lt ((capacityBits_lt s).trans (by decide)))

/-- Settles O19: both numbers are at most the capacity in bits, which is below 2^34. -/
theorem capacityRegistersExact : Obligations.CapacityRegistersExact := by
  intro s hb
  have hbits := toNat_ofNat_of_le_capacityBits (s := s) le_rfl
  exact ⟨_, capacityCommand s hb, hbits, toNat_ofNat_of_le_capacityBits (s := s) (Nat.div_le_self _ 8),
    hbits.trans_lt (capacityBits_lt s)⟩

/-! ### CAPACITY and ENCODE -/

theorem execEncode_next_phase {s t : State} (h : exec .encode s = .next t) : t.phase = .done := by
  obtain ⟨_, _, ⟨_, rfl⟩ | ⟨_, _, _, _, _, _, _, rfl⟩⟩ := execEncode_next.1 h
  · rfl
  · rfl

/-- Settles O20: ENCODE begins and ends outside BUSY and keeps WIDTH and HEIGHT, on which alone CAPACITY's results
depend. -/
theorem encodeKeepsCapacity : Obligations.EncodeKeepsCapacity := by
  intro s t h
  obtain ⟨hb, _⟩ := execEncode_next.1 h
  have hb' : t.phase ≠ .busy := by simp [execEncode_next_phase h]
  obtain ⟨hw, hh, _⟩ := exec_next_kept h
  obtain ⟨b, hcap, _, _, hresults⟩ := execCapacity_congr hb' hw hh (capacityCommand s hb)
  exact ⟨_, b, capacityCommand s hb, hcap, hresults.symm⟩

/-- A frame is a number of whole bytes, so its bits fit exactly when its bytes fit the capacity in whole bytes
(42_capacity.md R153). -/
theorem frameBits_le_capacityBits_iff (s : State) : frameBits s ≤ capacityBits (opWidth s) (opHeight s) ↔
    fixedHeaderBytes + nameLenUsed (opNameLenIn s) + opPayLen s ≤ capacityBytes (opWidth s) (opHeight s) := by
  rw [frameBits, capacityBytes, Nat.le_div_iff_mul_le (by decide), Nat.mul_comm]

/-- ENCODE's capacity check decides the code it ends with (43_encoder.md R162). -/
theorem execEncode_err {s t : State} (h : exec .encode s = .next t) :
    (capacityBits (opWidth s) (opHeight s) < frameBits s ∧ t.err = .capacityExceeded) ∨
    (frameBits s ≤ capacityBits (opWidth s) (opHeight s) ∧ t.err = .none) := by
  obtain ⟨_, _, ⟨hexceeds, rfl⟩ | ⟨hfits, _, _, _, _, _, _, rfl⟩⟩ := execEncode_next.1 h
  · exact .inl ⟨hexceeds, rfl⟩
  · exact .inr ⟨hfits, rfl⟩

/-- Settles O26: the capacity check of ENCODE, in whole bytes. -/
theorem encodeFitsByWholeBytes : Obligations.EncodeFitsByWholeBytes := by
  intro s t h
  have hbytes := frameBits_le_capacityBits_iff s
  obtain ⟨hexceeds, herr⟩ | ⟨hfits, herr⟩ := execEncode_err h
  · have hlt := Nat.lt_of_not_le (mt hbytes.2 (Nat.not_le_of_lt hexceeds))
    rw [herr]
    exact ⟨iff_of_false nofun (Nat.not_le_of_lt hlt), iff_of_true rfl hlt⟩
  · have hle := hbytes.1 hfits
    rw [herr]
    exact ⟨iff_of_true rfl hle, iff_of_false nofun (Nat.not_lt_of_le hle)⟩

end Sys2Proof.Machine
end

section
/-! PROOF. Family 43_encoder.md: the two ends of ENCODE, its utilization pair, and what the walk leaves of a pixel. -/

namespace Sys2Proof.Machine

/-! ### The command ENCODE -/

/-- Settles O21: the capacity check raises the error after the report and before any read. -/
theorem encodeCapacityExceeded : Obligations.EncodeCapacityExceeded :=
  fun _ ⟨hb, hmax⟩ hexceeds => execEncode_next.2 ⟨hb, hmax, .inl ⟨hexceeds, rfl⟩⟩

/-- A frame has at least its fixed header bytes (43_encoder.md R161). -/
theorem frameBits_pos (s : State) : 0 < frameBits s := by
  unfold frameBits fixedHeaderBytes
  omega

/-- A frame that fits is in a capacity above 0, where the pair is the quotient itself (43_encoder.md R168). -/
theorem utilization_of_fits {s : State} (hfits : frameBits s ≤ capacityBits (opWidth s) (opHeight s)) :
    utilization (frameBits s) (capacityBits (opWidth s) (opHeight s)) =
      (frameBits s, capacityBits (opWidth s) (opHeight s)) :=
  if_neg (Nat.ne_of_gt ((frameBits_pos s).trans_le hfits))

/-- Settles O22: ENCODE is the common start, the report, the writes and the end without an error; the capacity is not
0. -/
theorem encodeSucceeds : Obligations.EncodeSucceeds := by
  intro s image name payload ⟨hb, hmax⟩ hfits hname hpay himage
  rw [execEncode_next.2 ⟨hb, hmax, .inr ⟨hfits, name, payload, image, hname, hpay, himage, rfl⟩⟩]
  simp only [encodeWrites, encodeReport_opWidth, encodeReport_opHeight, frameBits_encodeReport, startCommand_opWidth,
    startCommand_opHeight, frameBits_startCommand, utilization_of_fits hfits]
  rfl

/-- Settles O27: a successful ENCODE leaves the state of O22, and the two counts are at most the capacity. -/
theorem utilizationIsExact : Obligations.UtilizationIsExact := by
  intro s t h herr
  obtain ⟨hb, hmax, _⟩ := execEncode_next.1 h
  obtain ⟨hfits, name, payload, image, hname, hpay, himage, _⟩ := execEncode_success h herr
  cases (encodeSucceeds s image name payload ⟨hb, hmax⟩ hfits hname hpay himage).symm.trans h
  have hnum := toNat_ofNat_of_le_capacityBits hfits
  have hden := toNat_ofNat_of_le_capacityBits (s := s) le_rfl
  exact ⟨hnum, hden, (frameBits_pos s).trans_eq hnum.symm, (hnum.trans_le hfits).trans_eq hden.symm, rfl, rfl⟩

/-! ### What the walk leaves of a pixel -/

@[simp] theorem pixelAt_cons_zero (p : Pixel) (ps : List Pixel) : pixelAt (p :: ps) 0 = p := rfl

@[simp] theorem pixelAt_cons_succ (p : Pixel) (ps : List Pixel) (i : Nat) :
    pixelAt (p :: ps) (i + 1) = pixelAt ps i := rfl

@[simp] theorem channel_embedPixel_upper (p : Pixel) (b0 b1 b2 : Bool) (c : Nat) :
    channel (embedPixel p b0 b1 b2) c >>> 1 = channel p c >>> 1 := by
  unfold channel embedPixel
  split_ifs
  · exact setLsb_upper p.r b0
  · exact setLsb_upper p.g b1
  · exact setLsb_upper p.b b2

/-- The walk keeps bits 7 to 1 of every channel (43_encoder.md R169). -/
theorem channel_embed_upper (image : List Pixel) (bits : Bitstream) (i c : Nat) :
    channel (pixelAt (embed image bits) i) c >>> 1 = channel (pixelAt image i) c >>> 1 := by
  induction image, bits using embed.induct generalizing i with
  | case1 bits => rfl
  | case2 p ps => rfl
  | case3 p ps b0 => cases i <;> simp [embed]
  | case4 p ps b0 b1 => cases i <;> simp [embed]
  | case5 p ps b0 b1 b2 bits ih =>
    cases i with
    | zero => simp [embed]
    | succ i => simpa [embed] using ih i

/-- The walk keeps the pixels after the last one it writes (43_encoder.md R165). -/
theorem embed_getElem?_of_pixelsWritten_le {image : List Pixel} {bits : Bitstream} {i : Nat}
    (h : pixelsWritten bits.length ≤ i) : (embed image bits)[i]? = image[i]? := by
  induction image, bits using embed.induct generalizing i with
  | case1 bits => rfl
  | case2 p ps => rfl
  | case3 p ps b0 =>
    cases i with
    | zero => simp [pixelsWritten] at h
    | succ i => simp [embed]
  | case4 p ps b0 b1 =>
    cases i with
    | zero => simp [pixelsWritten] at h
    | succ i => simp [embed]
  | case5 p ps b0 b1 b2 bits ih =>
    have hstep := three_mul_pixelsWritten_add_three bits.length
    change pixelsWritten (bits.length + 3) ≤ i at h
    cases i with
    | zero => omega
    | succ i => simpa [embed] using ih (by omega)

/-- Two bytes with the same upper bits differ by at most their LSB. -/
theorem absDiff_le_one_of_upper_eq {x y : Byte} (h : x >>> 1 = y >>> 1) : absDiff x.toNat y.toNat ≤ 1 := by
  have hhalf : x.toNat / 2 = y.toNat / 2 := by
    simpa [Nat.shiftRight_one] using congrArg BitVec.toNat h
  unfold absDiff
  omega

/-- Settles O24: the walk sets LSBs only, pixel by pixel, and stops with the stream. -/
theorem embedKeepsUpperBits : Obligations.EmbedKeepsUpperBits := fun image bits =>
  ⟨embed_length image bits, channel_embed_upper image bits, fun _ => embed_getElem?_of_pixelsWritten_le,
    fun i c => absDiff_le_one_of_upper_eq (channel_embed_upper image bits i c)⟩

end Sys2Proof.Machine
end

section
/-! PROOF. Family 44_decoder.md: what DECODE finds in a stream, its failing and successful outcomes, the round trip with
ENCODE, and its independence of the upper bits. -/

namespace Sys2Proof.Machine

/-! ### The fields of a stream -/

theorem foldl_byteBits (v : Nat) (b : Byte) :
    (byteBits b).foldl (fun v b => 2 * v + b.toNat) v = 256 * v + b.toNat := by
  have hvalue : bitsValue (byteBits b) = b.toNat := by
    revert b
    decide
  simp only [bitsValue, byteBits, List.foldl_cons, List.foldl_nil] at hvalue ⊢
  omega

/-- The number that serialized bytes spell is their big-endian value (00_scope.md R10). -/
theorem bitsValue_bytesToBits (d : List Byte) : bitsValue (bytesToBits d) = beValue d := by
  simp only [bitsValue, bytesToBits, beValue, List.foldl_flatMap, foldl_byteBits]

theorem bytesToBits_injective : Function.Injective bytesToBits := fun d e h =>
  Option.some.inj (by rw [← bitsToBytes_bytesToBits d, h, bitsToBytes_bytesToBits])

theorem magicBits_eq_bytesToBits : magicBits = bytesToBits magic := by decide

theorem bytesOfSpan_eq_ok {bits : Bitstream} {d : List Byte} (h : bitsToBytes bits = some d) :
    bytesOfSpan bits = .ok d := by rw [bytesOfSpan, h]

/-- A span of whole bytes within the stream has the bytes it serializes. -/
theorem exists_bitsToBytes_slice {bits : Bitstream} {a b : Nat} (hb : 8 * b ≤ bits.length) :
    ∃ d, bitsToBytes (slice bits (8 * a) (8 * b)) = some d ∧ bytesToBits d = slice bits (8 * a) (8 * b) ∧
      d.length = b - a := by
  have hlen : (slice bits (8 * a) (8 * b)).length = 8 * (b - a) := by
    rw [slice_length]
    omega
  obtain ⟨d, hd, hbits⟩ := exists_bytesToBits_eq (hlen ▸ Nat.mul_mod_right 8 (b - a))
  have hbytes := bytesToBits_length d
  rw [hbits, hlen] at hbytes
  exact ⟨d, hd, hbits, by omega⟩

/-- The fixed bytes of a header are the stream's first 88 bits: magic, N and P (30_encoding.md R101). -/
theorem exists_fixedBytes {bits : Bitstream} (h : 8 * fixedHeaderBytes ≤ bits.length) :
    ∃ fixed, bytesOfSpan (slice bits 0 (8 * fixedHeaderBytes)) = .ok fixed ∧
      (slice fixed 0 5 = magic ↔ slice bits 0 40 = magicBits) ∧
      beValue (slice fixed 5 7) = streamNameLen bits ∧ beValue (slice fixed 7 11) = streamPayLen bits := by
  obtain ⟨fixed, hbytes, hbits, hlen⟩ := exists_bitsToBytes_slice (a := 0) h
  have hsplit : bytesToBits fixed ++ bits.drop (8 * fixedHeaderBytes) = bits := by
    rw [hbits]
    exact List.take_append_drop _ bits
  have hfield (a b : Nat) (hb : b ≤ 11) : slice bits (8 * a) (8 * b) = bytesToBits (slice fixed a b) := by
    conv_lhs => rw [← hsplit]
    exact slice_bytesToBits_append a _ (hb.trans_eq hlen.symm)
  refine ⟨fixed, bytesOfSpan_eq_ok hbytes, ?_, ?_, ?_⟩
  · rw [hfield 0 5 (by decide), magicBits_eq_bytesToBits, bytesToBits_injective.eq_iff]
  · rw [streamNameLen, hfield 5 7 (by decide), bitsValue_bytesToBits]
  · rw [streamPayLen, hfield 7 11 (by decide), bitsValue_bytesToBits]

/-! ### unpackHeader as a function of the stream (41_header_codec.md R135) -/

theorem unpackHeader_tooShort {bits : Bitstream} (h : bits.length < 8 * fixedHeaderBytes) :
    unpackHeader bits = .error (.raised .headerTooShort) := if_pos h

theorem unpackHeader_noMagic {bits : Bitstream} (h88 : 8 * fixedHeaderBytes ≤ bits.length)
    (hmagic : slice bits 0 40 ≠ magicBits) : unpackHeader bits = .error (.raised .noStegoHeader) := by
  obtain ⟨fixed, hfixed, hiff, _⟩ := exists_fixedBytes h88
  simp only [unpackHeader, if_neg h88.not_gt, hfixed, if_pos (mt hiff.1 hmagic)]

theorem unpackHeader_corrupt {bits : Bitstream} (h88 : 8 * fixedHeaderBytes ≤ bits.length)
    (hmagic : slice bits 0 40 = magicBits) (hshort : bits.length < headerBitsOf (streamNameLen bits)) :
    unpackHeader bits = .error (.raised .corruptHeader) := by
  obtain ⟨fixed, hfixed, hiff, hN, _⟩ := exists_fixedBytes h88
  simp only [unpackHeader, if_neg h88.not_gt, hfixed, if_neg (not_not.2 (hiff.2 hmagic)), unpackVariable, hN,
    if_pos hshort]

/-- A stream that holds the header it declares is unpacked: the name is the stream's span, the numbers its fields. -/
theorem exists_unpackHeader_ok {bits : Bitstream} (hmagic : slice bits 0 40 = magicBits)
    (hbits : headerBitsOf (streamNameLen bits) ≤ bits.length) :
    ∃ name, unpackHeader bits =
        .ok ⟨name, utf8Lossy name, streamPayLen bits, headerBitsOf (streamNameLen bits)⟩ ∧
      bytesToBits name = slice bits (8 * fixedHeaderBytes) (headerBitsOf (streamNameLen bits)) ∧
      name.length = streamNameLen bits := by
  obtain ⟨fixed, hfixed, hiff, hN, hP⟩ :=
    exists_fixedBytes ((Nat.mul_le_mul_left 8 (Nat.le_add_right fixedHeaderBytes _)).trans hbits)
  obtain ⟨name, hname, hspan, hlen⟩ := exists_bitsToBytes_slice (a := fixedHeaderBytes) hbits
  have hunpack := unpackHeader_eq_ok hfixed (hiff.2 hmagic) (hN ▸ hbits) (hN ▸ bytesOfSpan_eq_ok hname)
  rw [hN, hP] at hunpack
  exact ⟨name, hunpack, hspan, hlen.trans (Nat.add_sub_cancel_left ..)⟩

/-! ### The outcomes of DECODE -/

/-- Settles O36: the first three errors are those of unpackHeader, the last is the check after it. -/
theorem decodeFailures : Obligations.DecodeFailures := by
  intro s image ⟨hb, hmax⟩ himage bits fail
  have hheader {e : ErrCode} (he : unpackHeader bits = .error (.raised e)) : exec .decode s = fail e :=
    execDecode_next.2 ⟨hb, hmax, image, himage, .inl ⟨e, he, rfl⟩⟩
  refine ⟨fun hshort => hheader (unpackHeader_tooShort hshort),
    fun h88 hmagic => hheader (unpackHeader_noMagic h88 hmagic),
    fun h88 hmagic hshort => hheader (unpackHeader_corrupt h88 hmagic hshort),
    fun _ hmagic hbits hshort => ?_⟩
  obtain ⟨name, hunpack, _⟩ := exists_unpackHeader_ok hmagic hbits
  exact execDecode_next.2 ⟨hb, hmax, image, himage,
    .inr (.inl ⟨_, hunpack, by rwa [headerBitsOf, fixedHeaderBytes, ← Nat.mul_add], rfl⟩)⟩

/-- Settles O37: the header is unpacked, and the payload is the span after it. -/
theorem decodeSucceeds : Obligations.DecodeSucceeds := by
  intro s image ⟨hb, hmax⟩ himage bits n p hmagic hfits
  obtain ⟨name, hunpack, hnameBits, hname⟩ :=
    exists_unpackHeader_ok hmagic ((Nat.mul_le_mul_left 8 (Nat.le_add_right (11 + n) p)).trans hfits)
  obtain ⟨payload, hbytes, hpayBits, hpay⟩ := exists_bitsToBytes_slice (a := 11 + n) hfits
  rw [Nat.add_sub_cancel_left] at hpay
  refine ⟨name, payload, hname, hpay, hnameBits.trans (by rw [headerBitsOf, Nat.mul_add]; rfl), hpayBits, ?_⟩
  rw [execDecode_next.2 ⟨hb, hmax, image, himage, .inr (.inr ⟨_, payload, hunpack, ?_, ?_, hpay, rfl⟩)⟩]
  · rw [decodeWrites, hname]
    rfl
  · rwa [Nat.mul_add] at hfits
  · rwa [Nat.mul_add 8 (11 + n)] at hbytes

/-! ### The round trip -/

/-- A stream whose slots hold a frame begins with the frame's serialized bytes (43_encoder.md R163). -/
theorem bytesToBits_prefix_extract {image : List Pixel} {full : List Byte}
    (h : ∀ i, i < 8 * full.length → slotValue image i = some (frameBit full i)) :
    bytesToBits full <+: extract image := by
  refine List.prefix_iff_getElem?.2 fun i hi => ?_
  have hi' : i < 8 * full.length := hi.trans_eq (bytesToBits_length full)
  rw [extract_getElem?, h i hi', ← bytesToBits_getElem?_eq_frameBit hi', List.getElem?_eq_getElem hi]

/-- unpackHeader of a stream that begins with a packed header whose name is not truncated (41_header_codec.md R143). -/
theorem unpackHeader_of_packed_prefix {bits : Bitstream} {name : List Byte} {nameLenIn payLen : Nat}
    (hname : name.length = nameLenUsed nameLenIn) (hpay : payLen < 2 ^ 32)
    (h : bytesToBits (packHeader name nameLenIn payLen) <+: bits) :
    unpackHeader bits = .ok ⟨name, utf8Lossy name, payLen, headerBitsOf name.length⟩ := by
  obtain ⟨rest, rfl⟩ := h
  have hinverse : unpackHeader (bytesToBits (packHeader name nameLenIn payLen) ++ rest) =
      .ok ⟨name.take (nameLenUsed nameLenIn), utf8Lossy (name.take (nameLenUsed nameLenIn)), payLen,
        headerBitsOf (nameLenUsed nameLenIn)⟩ := unpackInvertsPack name nameLenIn payLen rest hpay hname.ge
  rwa [← hname, List.take_length] at hinverse

/-- In a stream that begins with two serialized parts, the span after the first is read back as the second. -/
theorem bitsToBytes_slice_second {bits : Bitstream} {d e : List Byte} (h : bytesToBits (d ++ e) <+: bits) :
    bitsToBytes (slice bits (8 * d.length) (8 * (d.length + e.length))) = some e := by
  obtain ⟨rest, rfl⟩ := h
  have hslice : slice (d ++ e) d.length (d ++ e).length = e := by
    rw [slice, List.take_length, List.drop_left]
  rw [← List.length_append, slice_bytesToBits_append _ _ le_rfl, hslice, bitsToBytes_bytesToBits]

/-- DECODE of an image whose stream begins with a packed frame returns the name and the payload packed in it. -/
theorem execDecode_of_packed_frame {u : State} {image : List Pixel} {name payload : List Byte} {nameLenIn : Nat}
    (hb : u.phase ≠ .busy) (hmax : pixelCount u ≤ u.cfg.maxPixels)
    (himage : readCells u.pixIn 0 (pixelCount u) = some image)
    (hname : name.length = nameLenUsed nameLenIn) (hpay : payload.length < 2 ^ 32)
    (hframe : bytesToBits (packHeader name nameLenIn payload.length ++ payload) <+: extract image) :
    exec .decode u = .next (endCommand .none (decodeWrites
      ⟨name, utf8Lossy name, payload.length, headerBitsOf name.length⟩ payload
      (startCommand (encodeWord .decode) u))) := by
  have hheader : (packHeader name nameLenIn payload.length).length = fixedHeaderBytes + name.length := by
    rw [packHeader_length hname.ge, hname]
  have hprefix : bytesToBits (packHeader name nameLenIn payload.length) <+: extract image :=
    (bytesToBits_append .. ▸ List.prefix_append ..).trans hframe
  refine execDecode_next.2 ⟨hb, hmax, image, himage, .inr (.inr
    ⟨_, payload, unpackHeader_of_packed_prefix hname hpay hprefix, ?_, ?_, rfl, rfl⟩)⟩
  · have hbits := hframe.length_le
    rwa [bytesToBits_length, List.length_append, hheader, Nat.mul_add] at hbits
  · have hspan := bitsToBytes_slice_second hframe
    rwa [hheader, Nat.mul_add 8 (fixedHeaderBytes + name.length)] at hspan

/-- Settles O38: ENCODE leaves the frame in the slots of PIX_OUT, and DECODE of these slots returns what is packed in
it; what it wrote from index 0 is read back. -/
theorem encodeDecodeRoundTrip : Obligations.EncodeDecodeRoundTrip := by
  intro s t u name payload h herr hname hpay hb hcfg hw hh hpix
  obtain ⟨_, hmax, _⟩ := execEncode_next.1 h
  obtain ⟨image, himage, hslots, _⟩ := encodedImageHoldsFrame s t name payload h herr hname hpay
  have hnameLen : name.length = nameLenUsed (opNameLenIn s) := readCells_length hname
  have hpayLen : payload.length = opPayLen s := readCells_length hpay
  have hcount : pixelCount u = pixelCount s := pixelCount_congr hw hh
  have hframe : bytesToBits (packHeader name (opNameLenIn s) payload.length ++ payload) <+: extract image := by
    rw [hpayLen]
    exact bytesToBits_prefix_extract fun i hi => hslots i (hi.trans_eq (frame_length hname hpay))
  have hdecode := execDecode_of_packed_frame hb (by rwa [hcount, hcfg]) (by rw [hcount]; exact hpix.trans himage)
    hnameLen (hpayLen ▸ s.payLen.isLt) hframe
  have hN := nameLenUsed_lt (opNameLenIn s)
  have hheader : headerBitsOf name.length < 2 ^ 64 := by
    unfold headerBitsOf fixedHeaderBytes
    omega
  have hname16 : (BitVec.ofNat 16 name.length).toNat = name.length := Nat.mod_eq_of_lt (hnameLen ▸ hN)
  refine ⟨_, hdecode, rfl, ?_, ?_, hname16.trans hnameLen, ?_, ?_, fun text htext _ hutf8 => ?_⟩
  · exact BitVec.eq_of_toNat_eq (Nat.mod_eq_of_lt (hpayLen ▸ s.payLen.isLt) |>.trans hpayLen)
  · exact hpayLen ▸ readCells_writeCells_zero payload u.payOut
  · exact hnameLen ▸ readCells_writeCells_zero name u.nameOut
  · exact (Nat.mod_eq_of_lt hheader).trans (congrArg headerBitsOf hnameLen)
  · obtain rfl : utf8Lossy name = text := hutf8 ▸ (wellFormedUtf8Decodes text [] htext).2
    exact ⟨Nat.mod_eq_of_lt ((utf8Lossy_length name).trans_lt (hnameLen ▸ hN)),
      readCells_writeCells_zero _ u.fnameOut⟩

/-! ### DECODE and the upper bits -/

/-- The three LSBs of a pixel in the order of the stream, from its code (45_detector.md R205). -/
def codeLsbs (v : BitVec 3) : Bitstream := [v.getLsbD 2, v.getLsbD 1, v.getLsbD 0]

theorem codeLsbs_pixelCode (p : Pixel) : codeLsbs (pixelCode p) = pixelLsbs p := by
  unfold codeLsbs pixelCode pixelLsbs
  generalize p.r.getLsbD 0 = r, p.g.getLsbD 0 = g, p.b.getLsbD 0 = b
  revert r g b
  decide

theorem extract_eq_flatMap_codeLsbs (image : List Pixel) : extract image = (image.map pixelCode).flatMap codeLsbs := by
  simp only [extract, List.flatMap_map, codeLsbs_pixelCode]

theorem extract_congr_of_sameLsbs {a b : List Pixel} (h : sameLsbs a b) : extract a = extract b := by
  rw [extract_eq_flatMap_codeLsbs, extract_eq_flatMap_codeLsbs, h]

/-- Settles O39: each outcome of DECODE depends on the image only through its stream. -/
theorem decodeReadsOnlyLsbs : Obligations.DecodeReadsOnlyLsbs := by
  intro s t m a b h ha hbImage hsame
  obtain ⟨hb, hmax, image, himage, hend⟩ := execDecode_next.1 h
  cases ha.symm.trans himage
  rw [extract_congr_of_sameLsbs hsame] at hend
  refine execDecode_next.2 ⟨hb, hmax, b, hbImage, ?_⟩
  obtain ⟨e, he, rfl⟩ | ⟨hdr, hhdr, hshort, rfl⟩ | ⟨hdr, payload, hhdr, hfits, hbytes, hlen, rfl⟩ := hend
  · exact .inl ⟨e, he, rfl⟩
  · exact .inr (.inl ⟨hdr, hhdr, hshort, rfl⟩)
  · exact .inr (.inr ⟨hdr, payload, hhdr, hfits, hbytes, hlen, rfl⟩)

end Sys2Proof.Machine
end

section
/-! PROOF. Family 45_detector.md: the counts of DETECT by slot and by pair of neighbours, its two roundings and its
score as exact rationals, and its next state. -/

namespace Sys2Proof.Machine

/-! ### The rounding -/

/-- Where round4 stays at the quotient and where it goes up (45_detector.md R209). -/
theorem round4_cases (n d : Nat) :
    (round4 n d = 10000 * n / d ∧
      (2 * (10000 * n % d) < d ∨ 2 * (10000 * n % d) = d ∧ round4 n d % 2 = 0)) ∨
    (round4 n d = 10000 * n / d + 1 ∧
      (d < 2 * (10000 * n % d) ∨ 2 * (10000 * n % d) = d ∧ round4 n d % 2 = 0)) := by
  simp only [round4]
  split_ifs <;> omega

/-- Settles O47: the distance from the quotient is the remainder, from its successor the rest of the divisor. -/
theorem roundFourNearestEven : Obligations.RoundFourNearestEven := by
  intro n d hd
  rw [← and_assoc]
  refine ⟨?_, round4_le hd⟩
  have hdiv := Nat.div_add_mod' (10000 * n) d
  have hlt := Nat.mod_lt (10000 * n) hd
  obtain ⟨hq, hnear⟩ | ⟨hq, hnear⟩ := round4_cases n d
  · have hdown : absDiff (10000 * n) (round4 n d * d) = 10000 * n % d := by
      rw [hq, absDiff]; omega
    rw [hdown]
    omega
  · have hup : absDiff (10000 * n) (round4 n d * d) = d - 10000 * n % d := by
      rw [hq, absDiff, Nat.add_one_mul (10000 * n / d)]; omega
    rw [hup]
    omega

theorem round4_lsbBalance (ones total : Nat) : round4 (lsbBalance ones total).1 (lsbBalance ones total).2 =
    if total = 0 then 5000 else round4 ones total := by
  unfold lsbBalance
  split
  · decide
  · rfl

theorem round4_flipRate (flips comps : Nat) : round4 (flipRate flips comps).1 (flipRate flips comps).2 =
    if comps = 0 then 0 else round4 flips comps := by
  unfold flipRate
  split
  · decide
  · rfl

/-! ### The command DETECT -/

/-- Settles O41: the one way DETECT ends, with the guards of its two ratios drawn out of round4. -/
theorem detectCommand : Obligations.DetectCommand := by
  intro s image ⟨hb, hmax⟩ himage total ones flips comps bs fs
  rw [execDetect_next.2 ⟨hb, hmax, image, himage, rfl⟩]
  simp only [detectWrites, round4_lsbBalance, round4_flipRate]
  rfl

/-- Settles O48: the image is empty, so no cell is read, and both totals are 0. -/
theorem zeroAreaScore : Obligations.ZeroAreaScore := by
  intro s hb hzero
  have hcount : s.width.toNat * s.height.toNat = 0 := by
    obtain h | h := hzero <;> simp [h]
  have htotal : 3 * s.width.toNat * s.height.toNat = 0 := by rw [Nat.mul_assoc, hcount]
  have hcomps : (if 2 ≤ s.width.toNat then 3 * s.height.toNat * (s.width.toNat - 1) else 0) = 0 := by
    obtain h | h := hzero <;> simp [h]
  have hrun : s.mayRun := ⟨hb, hcount.trans_le (Nat.zero_le _)⟩
  have himage : readCells s.pixIn 0 (s.width.toNat * s.height.toNat) = some [] := by rw [hcount, readCells_zero]
  refine ⟨_, detectCommand s [] hrun himage, ?_⟩
  simp [htotal, hcomps, imageOnes]

/-! ### The count of ones -/

theorem imageOnes_eq_count (image : List Pixel) : imageOnes image = (extract image).count true := by
  have hbit : ∀ (b : Bool) (bits : Bitstream), (b :: bits).count true = b.toNat + bits.count true := by
    intro b bits
    cases b <;> simp [Nat.add_comm]
  induction image with
  | nil => rfl
  | cons p ps ih =>
    simp only [imageOnes, List.map_cons, List.sum_cons] at ih ⊢
    rw [extract_cons, hbit, hbit, hbit, ih]
    omega

/-- The occurrences of a value in a list, counted by index. -/
theorem count_eq_length_filter_range {α : Type} [DecidableEq α] (l : List α) (a : α) :
    l.count a = ((List.range l.length).filter fun i => l[i]? = some a).length := by
  induction l with
  | nil => rfl
  | cons b l ih =>
    rw [List.length_cons, List.range_succ_eq_map, List.filter_cons, List.filter_map, List.count_cons, ih]
    simp only [Function.comp_def, List.getElem?_cons_succ, List.getElem?_cons_zero]
    split <;> simp_all

theorem imageOnes_le_totalSamples {s : State} {image : List Pixel}
    (himage : readCells s.pixIn 0 (pixelCount s) = some image) :
    imageOnes image ≤ totalSamples (opWidth s) (opHeight s) := by
  have h := imageOnes_le image
  rwa [readCells_length himage, pixelCount, ← Nat.mul_assoc] at h

/-- Settles O42: the stream of an image holds its slots in order; neither count wraps. -/
theorem detectCountsSlots : Obligations.DetectCountsSlots := by
  refine ⟨fun image => ?_, fun s t h => ?_⟩
  · rw [imageOnes_eq_count, count_eq_length_filter_range, extract_length]
    simp only [extract_getElem?]
  · obtain ⟨_, _, image, himage, rfl⟩ := execDetect_next.1 h
    have hle := imageOnes_le_totalSamples himage
    have hlt := totalSamples_lt s
    have hones : (BitVec.ofNat 64 (imageOnes image)).toNat = imageOnes image := Nat.mod_eq_of_lt (by omega)
    have hzeros : (BitVec.ofNat 64 (totalSamples (opWidth s) (opHeight s) - imageOnes image)).toNat =
        totalSamples (opWidth s) (opHeight s) - imageOnes image := Nat.mod_eq_of_lt (by omega)
    calc (BitVec.ofNat 64 (imageOnes image)).toNat +
          (BitVec.ofNat 64 (totalSamples (opWidth s) (opHeight s) - imageOnes image)).toNat
      _ = totalSamples (opWidth s) (opHeight s) := by rw [hones, hzeros]; omega

/-! ### The count of flips -/

/-- The lanes of a code: R in bit 2, G in bit 1, B in bit 0 (45_detector.md R205). -/
theorem pixelCode_getLsbD (p : Pixel) : (pixelCode p).getLsbD 2 = p.r.getLsbD 0 ∧
    (pixelCode p).getLsbD 1 = p.g.getLsbD 0 ∧ (pixelCode p).getLsbD 0 = p.b.getLsbD 0 := by
  have h := codeLsbs_pixelCode p
  simp only [codeLsbs, pixelLsbs, List.cons.injEq, and_true] at h
  exact h

/-- Settles O44: bit by bit, the xor of two codes is the xor of two LSBs. -/
theorem flipsLaneByLane : Obligations.FlipsLaneByLane := by
  have hlane : ∀ x y : Bool, (x ^^ y).toNat = if x = y then 0 else 1 := by decide
  intro p q
  obtain ⟨hpr, hpg, hpb⟩ := pixelCode_getLsbD p
  obtain ⟨hqr, hqg, hqb⟩ := pixelCode_getLsbD q
  rw [codePopcount, BitVec.getLsbD_xor, BitVec.getLsbD_xor, BitVec.getLsbD_xor, hpr, hpg, hpb, hqr, hqg, hqb,
    hlane, hlane, hlane]
  omega

/-- The flips of a row, by position. -/
theorem rowFlips_eq_sum (row : List Pixel) :
    rowFlips row =
      ((List.range (row.length - 1)).map fun x => pairFlips (pixelAt row x) (pixelAt row (x + 1))).sum := by
  induction row using rowFlips.induct with
  | case1 => rfl
  | case2 p => rfl
  | case3 p q rest ih =>
    rw [rowFlips, ih]
    simp [List.range_succ_eq_map, Function.comp_def, pixelAt]

theorem pixelAt_take {image : List Pixel} {w x : Nat} (h : x < w) : pixelAt (image.take w) x = pixelAt image x := by
  simp [pixelAt, List.getD_eq_getElem?_getD, h]

theorem pixelAt_drop (image : List Pixel) (w p : Nat) : pixelAt (image.drop w) p = pixelAt image (w + p) := by
  simp [pixelAt, List.getD_eq_getElem?_getD]

/-- The flips of an image, by row and by column. -/
theorem imageFlips_eq_sum {w h : Nat} {image : List Pixel} (hlen : image.length = w * h) : imageFlips w h image =
    ((List.range h).map fun y => ((List.range (w - 1)).map fun x =>
      pairFlips (pixelAt image (y * w + x)) (pixelAt image (y * w + x + 1))).sum).sum := by
  induction h generalizing image with
  | zero => rfl
  | succ h ih =>
    rw [Nat.mul_add_one] at hlen
    have hfirst : rowFlips (image.take w) =
        ((List.range (w - 1)).map fun x => pairFlips (pixelAt image x) (pixelAt image (x + 1))).sum := by
      rw [rowFlips_eq_sum, List.length_take, Nat.min_eq_left (by omega)]
      refine congrArg List.sum (List.map_congr_left fun x hx => ?_)
      have := List.mem_range.1 hx
      rw [pixelAt_take (by omega), pixelAt_take (by omega)]
    have hlater := ih (image := image.drop w) (by rw [List.length_drop]; omega)
    have hindex (y x : Nat) : (y + 1) * w + x = w + (y * w + x) := by ring
    rw [imageFlips, hfirst, hlater, List.range_succ_eq_map]
    simp [Function.comp_def, pixelAt_drop, hindex, Nat.add_assoc]

/-- Settles O43: the sum goes row by row, and each pair adds at most 3. -/
theorem flipsAreRowPairs : Obligations.FlipsAreRowPairs :=
  fun w h image hlen => ⟨imageFlips_eq_sum hlen, imageFlips_le w h image⟩

/-! ### DETECT and the upper bits -/

theorem imageOnes_congr_of_sameLsbs {a b : List Pixel} (h : sameLsbs a b) : imageOnes a = imageOnes b := by
  rw [imageOnes_eq_count, imageOnes_eq_count, extract_congr_of_sameLsbs h]

theorem pixelCode_pixelAt_congr {a b : List Pixel} (h : sameLsbs a b) (i : Nat) :
    pixelCode (pixelAt a i) = pixelCode (pixelAt b i) := by
  calc pixelCode (pixelAt a i) = (a.map pixelCode).getD i (pixelCode blackPixel) := (List.getD_map a _ _).symm
    _ = (b.map pixelCode).getD i (pixelCode blackPixel) := by rw [h]
    _ = pixelCode (pixelAt b i) := List.getD_map b _ _

theorem imageFlips_congr_of_sameLsbs {w h : Nat} {a b : List Pixel} (ha : a.length = w * h) (hsame : sameLsbs a b) :
    imageFlips w h a = imageFlips w h b := by
  have hb : b.length = w * h := by
    have hlen := congrArg List.length hsame
    rw [List.length_map, List.length_map] at hlen
    exact hlen ▸ ha
  rw [imageFlips_eq_sum ha, imageFlips_eq_sum hb]
  simp only [pairFlips, pixelCode_pixelAt_congr hsame]

/-- The two counts are all that DETECT takes from the image. -/
theorem detectWrites_congr {a b : List Pixel} {s : State} (hones : imageOnes a = imageOnes b)
    (hflips : imageFlips (opWidth s) (opHeight s) a = imageFlips (opWidth s) (opHeight s) b) :
    detectWrites a s = detectWrites b s := by
  simp only [detectWrites, hones, hflips]

/-- Settles O49: both counts of an image go by its LSBs. -/
theorem detectReadsOnlyLsbs : Obligations.DetectReadsOnlyLsbs := by
  intro s t m a b h ha hbImage hsame
  obtain ⟨hb, hmax, image, himage, rfl⟩ := execDetect_next.1 h
  cases ha.symm.trans himage
  have hwrites : detectWrites a (startCommand (encodeWord .detect) s) =
      detectWrites b (startCommand (encodeWord .detect) s) :=
    detectWrites_congr (imageOnes_congr_of_sameLsbs hsame) (imageFlips_congr_of_sameLsbs (readCells_length ha) hsame)
  rw [hwrites]
  exact execDetect_next.2 ⟨hb, hmax, b, hbImage, rfl⟩

/-! ### The score as a rational -/

/-- The rational that a pair stands for (45_detector.md R211). -/
def ratio (x : Nat × Nat) : ℚ := (x.1 : ℚ) / (x.2 : ℚ)

theorem absDiff_cast (a b : Nat) : (absDiff a b : ℚ) = |(a : ℚ) - b| := by
  obtain h | h := Nat.le_total a b
  · rw [absDiff, Nat.sub_eq_zero_of_le h, Nat.zero_add, Nat.cast_sub h, abs_sub_comm,
      abs_of_nonneg (sub_nonneg.2 (Nat.cast_le.2 h))]
  · rw [absDiff, Nat.sub_eq_zero_of_le h, Nat.add_zero, Nat.cast_sub h,
      abs_of_nonneg (sub_nonneg.2 (Nat.cast_le.2 h))]

theorem ratio_balanceScore {ones total : Nat} (h : ones ≤ total) :
    ratio (balanceScore ones total) = 1 - 2 * |1 / 2 - ratio (lsbBalance ones total)| := by
  obtain rfl | hpos := Nat.eq_zero_or_pos total
  · norm_num [ratio, balanceScore, lsbBalance]
  have ht : (0 : ℚ) < total := Nat.cast_pos.2 hpos
  have hdiff : absDiff total (2 * ones) ≤ total := by rw [absDiff]; omega
  have hscale : |(total : ℚ) - 2 * ones| = 2 * total * |1 / 2 - (ones : ℚ) / total| := by
    calc |(total : ℚ) - 2 * ones| = |2 * total * (1 / 2 - (ones : ℚ) / total)| := by congr 1; field_simp
      _ = 2 * total * |1 / 2 - (ones : ℚ) / total| := by rw [abs_mul, abs_of_pos (by positivity)]
  simp only [ratio, balanceScore, lsbBalance, hpos.ne', if_false]
  rw [Nat.cast_sub hdiff, absDiff_cast, Nat.cast_mul, Nat.cast_ofNat, hscale]
  field_simp

theorem ratio_flipScore (flips comps : Nat) :
    ratio (flipScore flips comps) = min 1 (ratio (flipRate flips comps) / (1 / 2)) := by
  obtain rfl | hpos := Nat.eq_zero_or_pos comps
  · norm_num [ratio, flipScore, flipRate]
  have hc : (0 : ℚ) < comps := Nat.cast_pos.2 hpos
  simp only [ratio, flipScore, flipRate, hpos.ne', if_false]
  calc ((min comps (2 * flips) : Nat) : ℚ) / comps
    _ = min ((comps : ℚ) / comps) (2 * flips / comps) := by push_cast; exact (min_div_div_right hc.le _ _).symm
    _ = min 1 ((flips : ℚ) / comps / (1 / 2)) := by rw [div_self hc.ne']; congr 1; ring

theorem ratio_scorePair {bs fs : Nat × Nat} (hb : bs.2 ≠ 0) (hf : fs.2 ≠ 0) :
    ratio (scorePair bs fs) = 3 / 5 * ratio bs + 2 / 5 * ratio fs := by
  simp only [ratio, scorePair]
  push_cast
  field_simp

theorem clamp_ratio {x : Nat × Nat} (h : x.1 ≤ x.2) : max 0 (min 1 (ratio x)) = ratio x := by
  have hnonneg : 0 ≤ ratio x := by unfold ratio; positivity
  have hle : ratio x ≤ 1 := div_le_one_of_le₀ (Nat.cast_le.2 h) (Nat.cast_nonneg _)
  rw [min_eq_right hle, max_eq_right hnonneg]

/-- Settles O45: each fraction by its own law; the score of two fractions of at most 1 needs no clamp. -/
theorem scoreIsExactRational : Obligations.ScoreIsExactRational := by
  intro ones total flips comps hle q bs fs
  have hb : bs.2 ≠ 0 := by rw [balanceScore_den]; split <;> omega
  have hf : fs.2 ≠ 0 := by rw [flipScore_den]; split <;> omega
  exact ⟨ratio_balanceScore hle, ratio_flipScore flips comps, ratio_scorePair hb hf,
    clamp_ratio (scorePair_le (balanceScore_le ones total) (flipScore_le flips comps))⟩

end Sys2Proof.Machine
end

section
/-! PROOF. Family 60_exceptions.md: how a command ends, with which code and in which state, the illegal word, and the
steps that reach IDLE. -/

namespace Sys2Proof.Machine

/-! ### No action of the host, and BUSY -/

/-- Settles O11: there is no word to fetch and no action to take. -/
theorem idleKeepsState : Obligations.IdleKeepsState := by
  intro s hq
  simp [step, nextCommand, hostStep, hq]

/-- Settles O17: each command begins with `runCommand`, which tests for BUSY first. -/
theorem commandWhileBusyRefused : Obligations.CommandWhileBusyRefused := fun i _ hb => exec_of_busy hb i

/-! ### The illegal word -/

/-- The one way an illegal word ends (60_exceptions.md R238). -/
theorem illegalCommand_next {c : BitVec 32} {s t : State} : illegalCommand c s = .next t ↔
    s.phase ≠ .busy ∧
      t = { s with cmd := c, phase := .done, err := .illegalCommand, results := Results.cleared } := by
  unfold illegalCommand
  rw [runCommand_next, Host.Outcome.next.injEq, eq_comm (b := t)]
  rfl

/-- A word outside 1 to 4 does not decode (30_encoding.md R92). -/
theorem exists_decodeWord_eq_error {c : BitVec 32} (hc : ¬ (1 ≤ c.toNat ∧ c.toNat ≤ 4)) :
    ∃ e, decodeWord c = .error e := by
  cases hd : decodeWord c with
  | ok i => exact absurd ((legalWordsAreOneToFour c).1 ⟨i, hd⟩) hc
  | error e => exact ⟨e, rfl⟩

/-- Settles O16: the step is that of the illegal word, with the action taken from the queue. -/
theorem illegalWordEndsWithError : Obligations.IllegalWordEndsWithError := by
  intro s c rest hb hq hc
  obtain ⟨e, hd⟩ := exists_decodeWord_eq_error hc
  rw [step_illegal hq hd, dropAction_eq hq]
  exact illegalCommand_next.2 ⟨hb, rfl⟩

/-! ### The end of a command -/

/-- A command that ends is in DONE, with its own word in CMD (60_exceptions.md R246, R247). -/
theorem exec_next_done {i : Instr} {s t : State} (h : exec i s = .next t) : t.phase = .done ∧ t.cmd = encodeWord i := by
  cases i with
  | capacity =>
    obtain ⟨_, hrule⟩ := execCapacity_next.1 h
    cases hrule
    exact ⟨rfl, rfl⟩
  | encode =>
    obtain ⟨_, _, ⟨_, rfl⟩ | ⟨_, _, _, _, _, _, _, rfl⟩⟩ := execEncode_next.1 h
    · exact ⟨rfl, rfl⟩
    · exact ⟨rfl, rfl⟩
  | decode =>
    obtain ⟨_, _, _, _, ⟨_, _, rfl⟩ | ⟨_, _, _, rfl⟩ | ⟨_, _, _, _, _, _, rfl⟩⟩ := execDecode_next.1 h
    · exact ⟨rfl, rfl⟩
    · exact ⟨rfl, rfl⟩
    · exact ⟨rfl, rfl⟩
  | detect =>
    obtain ⟨_, _, _, _, rfl⟩ := execDetect_next.1 h
    exact ⟨rfl, rfl⟩

/-- A command that may run and whose input cells hold values neither faults nor is refused. -/
theorem exec_next_of_supplied {i : Instr} {s : State} (hrun : s.mayRun) (hwf : s.memWf) (hsupplied : s.suppliedFor i) :
    ∃ t, exec i s = .next t := by
  obtain ⟨hb, hmax⟩ := hrun
  cases h : exec i s with
  | next t => exact ⟨t, rfl⟩
  | fault f => exact absurd h (exec_ne_fault i s f)
  | refused r =>
    obtain ⟨_, _, hbeyond⟩ | ⟨_, hunsupplied⟩ := exec_refused_reasons hb hwf h
    · exact absurd hmax (Nat.not_le_of_lt hbeyond)
    · exact absurd hsupplied hunsupplied

/-- Settles O50: no fault and no refusal is left, and every next state of a command is in DONE. -/
theorem suppliedCommandsEnd : Obligations.SuppliedCommandsEnd := by
  intro i s hrun hwf hsupplied
  obtain ⟨t, h⟩ := exec_next_of_supplied hrun hwf hsupplied
  exact ⟨t, h, exec_next_done h⟩

/-! ### The codes of each command -/

/-- The table of codes holds of every command, in every state (60_exceptions.md R242). -/
theorem exec_next_errAllowed {i : Instr} {s t : State} (h : exec i s = .next t) : errAllowed i t.err = true := by
  cases i with
  | capacity =>
    obtain ⟨_, hrule⟩ := execCapacity_next.1 h
    cases hrule
    rfl
  | encode =>
    obtain ⟨_, _, ⟨_, rfl⟩ | ⟨_, _, _, _, _, _, _, rfl⟩⟩ := execEncode_next.1 h
    · rfl
    · rfl
  | decode =>
    obtain ⟨_, _, _, _, ⟨_, he, rfl⟩ | ⟨_, _, _, rfl⟩ | ⟨_, _, _, _, _, _, rfl⟩⟩ := execDecode_next.1 h
    · exact errFits_encodeWord .decode _ ▸ unpackHeader_raised_fits he
    · rfl
    · rfl
  | detect =>
    obtain ⟨_, _, _, _, rfl⟩ := execDetect_next.1 h
    rfl

/-- Settles O52: the table row by row, and the one end of an illegal word. -/
theorem commandErrorCodes : Obligations.CommandErrorCodes := by
  refine ⟨fun _ _ h => of_decide_eq_true (exec_next_errAllowed h),
    fun _ _ h => of_decide_eq_true (exec_next_errAllowed h), fun _ _ h => of_decide_eq_true (exec_next_errAllowed h),
    fun _ _ h => of_decide_eq_true (exec_next_errAllowed h), fun s t c rest hq hc h => ?_⟩
  obtain ⟨e, hd⟩ := exists_decodeWord_eq_error hc
  rw [step_illegal hq hd] at h
  obtain ⟨_, rfl⟩ := illegalCommand_next.1 h
  rfl

/-! ### Errors are precise -/

/-- The state an ENCODE leaves that fails its capacity check: as for any error, with the two counts as its `info`
(60_exceptions.md R233, R240). -/
def capacityFailure (s : State) : State :=
  { failedWith .encode .capacityExceeded s with
    results := { Results.cleared with
      capBits := BitVec.ofNat 64 (capacityBits (opWidth s) (opHeight s))
      neededBits := BitVec.ofNat 64 (frameBits s) } }

/-- The two kinds of end with an error. -/
theorem exec_next_error {i : Instr} {s t : State} (h : exec i s = .next t) (herr : t.err ≠ .none) :
    (i = .encode ∧ t = capacityFailure s) ∨ ∃ e, e ≠ .capacityExceeded ∧ t = failedWith i e s := by
  cases i with
  | capacity => exact absurd (of_decide_eq_true (exec_next_errAllowed h)) herr
  | encode =>
    obtain ⟨_, _, ⟨_, rfl⟩ | ⟨_, _, _, _, _, _, _, rfl⟩⟩ := execEncode_next.1 h
    · exact .inl ⟨rfl, rfl⟩
    · exact absurd rfl herr
  | decode =>
    obtain ⟨_, _, _, _, ⟨e, he, rfl⟩ | ⟨_, _, _, rfl⟩ | ⟨_, _, _, _, _, _, rfl⟩⟩ := execDecode_next.1 h
    · refine .inr ⟨e, ?_, rfl⟩
      obtain rfl | rfl | rfl := unpackHeader_raised_cases he <;> nofun
    · exact .inr ⟨.insufficientData, nofun, rfl⟩
    · exact absurd rfl herr
  | detect => exact absurd (of_decide_eq_true (exec_next_errAllowed h)) herr

/-- NEEDED_BITS holds the bits of the largest frame (43_encoder.md R161). -/
theorem frameBits_lt (s : State) : frameBits s < 2 ^ 64 := by
  have hname := nameLenUsed_lt (opNameLenIn s)
  have hpay : opPayLen s < 2 ^ 32 := s.payLen.isLt
  unfold frameBits fixedHeaderBytes
  omega

theorem capacityFailure_info (s : State) :
    (capacityFailure s).results.capBits.toNat = capacityBits (opWidth s) (opHeight s) ∧
    (capacityFailure s).results.neededBits.toNat = frameBits s :=
  ⟨toNat_ofNat_of_le_capacityBits (s := s) le_rfl, Nat.mod_eq_of_lt (frameBits_lt s)⟩

/-- Settles O53: an ENCODE that fails its check, another error of a command, or an illegal word. -/
theorem errorsArePrecise : Obligations.ErrorsArePrecise := by
  intro s t c rest hq h herr
  cases hd : decodeWord c with
  | ok i =>
    cases decodeWord_eq_ok_iff.1 hd
    rw [step_command hq hd, dropAction_eq hq] at h
    obtain ⟨rfl, rfl⟩ | ⟨e, he, rfl⟩ := exec_next_error h herr
    · exact ⟨rfl, fun hne => absurd rfl hne, fun _ => capacityFailure_info _⟩
    · exact ⟨rfl, fun _ => rfl, fun hcap => absurd hcap he⟩
  | error d =>
    rw [step_illegal hq hd, dropAction_eq hq] at h
    obtain ⟨_, rfl⟩ := illegalCommand_next.1 h
    exact ⟨rfl, fun _ => rfl, nofun⟩

/-! ### Reaching IDLE -/

@[simp] theorem writeRegister_phase (s : State) (n : Nat) (v : BitVec (regWidth n)) :
    (writeRegister s n v).phase = s.phase := by
  obtain ⟨_, h⟩ | ⟨_, h⟩ | ⟨_, h⟩ | ⟨_, h⟩ | h := writeRegister_cases s n v <;> rw [h]

theorem onCells_next_phase {s t u : State} {sp : Space} {a n : Nat} (h : onCells s sp a n u = .next t)
    (hu : u.phase = s.phase) : t.phase = s.phase := by
  obtain ⟨_, _, rfl⟩ := onCells_next.1 h
  exact hu

/-- An action of the host leaves STATE, but for reset (60_exceptions.md R245). -/
theorem hostAct_next_phase {act : HostAction} {s t : State} (h : hostAct act s = .next t) (hreset : act ≠ .reset) :
    t.phase = s.phase := by
  cases act with
  | writeReg n v =>
    obtain ⟨_, ht⟩ := whenOwned_next.1 h
    cases ht
    exact writeRegister_phase s n v
  | writePixIn a vs => exact onCells_next_phase h rfl
  | writePayIn a vs => exact onCells_next_phase h rfl
  | writeNameIn a vs => exact onCells_next_phase h rfl
  | readReg n =>
    obtain hr | hr := hostAct_readReg_cases n s
    · cases hr.symm.trans h
      exact respond_phase _ s
    · cases hr.symm.trans h
  | readSpace sp a n => exact onCells_next_phase h (respond_phase _ s)
  | reset => exact absurd rfl hreset

/-- Settles O56: a command and an illegal word end in DONE, and an action other than reset leaves STATE. -/
theorem onlyResetReachesIdle : Obligations.OnlyResetReachesIdle := by
  intro s t h hidle
  obtain ⟨_, rfl⟩ | ⟨_, _, _, _, _, ht⟩ | ⟨_, _, _, _, _, ht⟩ | ⟨act, rest, hq, _, ht⟩ := step_next h
  · exact .inl hidle
  · obtain ⟨hdone, _⟩ := exec_next_done ht
    cases hdone.symm.trans hidle
  · obtain ⟨_, rfl⟩ := illegalCommand_next.1 ht
    cases hidle
  · by_cases hreset : act = .reset
    · exact .inr ⟨rest, hreset ▸ hq⟩
    · exact .inl ((hostAct_next_phase ht hreset).symm.trans hidle)

end Sys2Proof.Machine
end

section
/-! PROOF. Family 70_reset_and_hazards.md: reset in any state, and DECODE under other dimensions of the same product. -/

namespace Sys2Proof.Machine

/-- What a reset keeps is no register (70_reset_and_hazards.md R260). -/
theorem readRegister_resetBlock (s : State) (n : Nat) :
    readRegister (resetBlock s) n = readRegister State.reset n := rfl

theorem step_reset {s : State} {rest : List HostAction} (hq : s.host.queue = .reset :: rest) :
    step s = .next (resetBlock (dropAction s)) := step_hostAct hq nofun

/-- Settles O2: reset is taken without a test for BUSY, and the block after it reads as the reset state does. -/
theorem resetFromAnyState : Obligations.ResetFromAnyState := by
  intro s rest hq
  refine ⟨_, step_reset hq, resetBlock_phase _, resetBlock_err _, fun n => ?_, fun a => by simp⟩
  exact (readRegister_resetBlock _ n).trans (readRegister_reset n)

/-- Settles O40: WIDTH and HEIGHT enter DECODE through the number of cells read alone, and each outcome keeps them. -/
theorem decodeUsesFlatIndex : Obligations.DecodeUsesFlatIndex := by
  intro s t w h hprod hnext
  obtain ⟨hb, hmax, image, himage, hend⟩ := execDecode_next.1 hnext
  have hcount : pixelCount { s with width := w, height := h } = pixelCount s := hprod
  refine execDecode_next.2 ⟨hb, hcount.trans_le hmax, image, by rwa [hcount], ?_⟩
  obtain ⟨e, he, rfl⟩ | ⟨hdr, hhdr, hshort, rfl⟩ | ⟨hdr, payload, hhdr, hfits, hbytes, hlen, rfl⟩ := hend
  · exact .inl ⟨e, he, rfl⟩
  · exact .inr (.inl ⟨hdr, hhdr, hshort, rfl⟩)
  · exact .inr (.inr ⟨hdr, payload, hhdr, hfits, hbytes, hlen, rfl⟩)

end Sys2Proof.Machine
end
